-- ==== Sys2Proof/Word.lean ====
section
/-! DEFINITION. The data words of the BIT AES-128 core: bytes, 16-bit stream words, 16-byte
blocks, 4-byte key words and the round-key store (spec/00_scope.md R2, R8, R9, R11, R12). -/

namespace Sys2Proof

/-- A byte: an 8-bit value, bit 7 most significant (R9). -/
abbrev Byte := BitVec 8

/-- A word of the command or the response stream: 16 bits, bit 15 most significant (R48). -/
abbrev StreamWord := BitVec 16

/-- 16 bytes `S[0..15]`: a State, a key, a round key or a data block. Byte `i` is row `i mod 4`,
column `i / 4` of the 4×4 matrix (R11). -/
abbrev Block := Vector Byte 16

/-- A word of the cipher: 4 bytes, one column of a block, its row 0 first (R12). -/
abbrev KeyWord := Vector Byte 4

/-- The 11 round keys, indices 0..10 (R2, R18). -/
abbrev RoundKeys := Vector Block 11

end Sys2Proof
end

