-- ==== Sys2Proof/Syntax.lean ====
section
/-! DEFINITION. The instructions: one constructor for each row of spec/opcode_table.json. The
first five are the host's commands with the operand words that follow the command word
(spec/30_encoding.md R49, R50, R54, R56), the rest are the orchestrator's µops (R58). -/

namespace Sys2Proof

/-- One constructor per row of the opcode table. LEN is not a field: it is the number of operand
words `es` (R49: "number of operand words that follow"). -/
inductive Instr where
  /-- `LOADKEY e0, …` (OP 0, RSV 0), R98. -/
  | loadkey (es : List StreamWord)
  /-- `ENCRYPT e0, …` (OP 1, RSV 0), R99. -/
  | encrypt (es : List StreamWord)
  /-- `DECRYPT e0, …` (OP 2, RSV 0), R100. -/
  | decrypt (es : List StreamWord)
  /-- A command word with the reserved OP 3, any RSV (R56, R101). -/
  | illegalOp3 (rsv : BitVec 6) (es : List StreamWord)
  /-- A command word with RSV ≠ 0 and OP 0, 1 or 2 (R56, R101). Words with OP 3 and RSV ≠ 0 lie in
  both illegal rows of the table, which have one meaning; the model reads them as `illegalOp3`
  (log entry 7). -/
  | illegalRsv (rsv : BitVec 6) (op : BitVec 2) (es : List StreamWord)
  /-- `ARK r`: AddRoundKey with round key `r`, the µop's R field (R75). -/
  | uopArk (r : BitVec 4)
  /-- `SUB`: SubBytes (R76). -/
  | uopSub
  /-- `ISUB`: InverseSubBytes (R77). -/
  | uopIsub
  /-- `SR`: ShiftRows (R78). -/
  | uopSr
  /-- `ISR`: InverseShiftRows (R79). -/
  | uopIsr
  /-- `MC`: MixColumns (R80). -/
  | uopMc
  /-- `IMC`: InverseMixColumns (R81). -/
  | uopImc
  /-- `KEXP r`: one key-expansion round, `r` the µop's R field (R87). -/
  | uopKexp (r : BitVec 4)
  /-- `LDST`: the operand bytes become the working State (R92). -/
  | uopLdst
  /-- `OUTST`: emit the status word and the working State (R92). -/
  | uopOutst
  /-- `LDKEY`: the operand bytes become round key 0 (R92). -/
  | uopLdkey
  /-- A reserved µop: KIND 0xB..0xF, any R (R58). -/
  | uopReserved (r : BitVec 4) (kind : BitVec 4)
  deriving DecidableEq, Repr

end Sys2Proof
end

