-- ==== Sys2Proof/WellFormed.lean ====
section
/-! DEFINITION. Which terms of Instr an encoding of the spec stands for: the ranges of LEN, RSV, OP
(spec/30_encoding.md R49, R54, R56) and of the µops' R and KIND fields (R58). -/

namespace Sys2Proof

/-- LEN is 8 bits wide, so a command has 0..255 operand words (R49). -/
def lenFits (es : List StreamWord) : Bool := decide (es.length ≤ 255)

/-- The instruction is one that the spec's encoding admits. A wrong LEN or a bad operand value is
NOT ill-formed: R56 calls such a word "a well-formed command that fails". -/
def Instr.wf : Instr → Bool
  | .loadkey es => lenFits es
  | .encrypt es => lenFits es
  | .decrypt es => lenFits es
  | .illegalOp3 _ es => lenFits es
  | .illegalRsv rsv op es => decide (rsv ≠ 0) && decide (op ≠ 3) && lenFits es
  | .uopArk r => decide (r.toNat ≤ 10)
  | .uopSub => true
  | .uopIsub => true
  | .uopSr => true
  | .uopIsr => true
  | .uopMc => true
  | .uopImc => true
  | .uopKexp r => decide (1 ≤ r.toNat) && decide (r.toNat ≤ 10)
  | .uopLdst => true
  | .uopOutst => true
  | .uopLdkey => true
  | .uopReserved _ kind => decide (11 ≤ kind.toNat)

end Sys2Proof
end

