-- ==== Sys2Proof/Decode.lean ====
section
/-! DEFINITION. From the words of the command stream, and from the byte of a µop, to an instruction
(spec/30_encoding.md R48 to R58), and the encoder beside it. Decoding is total: what it does not
read as an instruction it rejects by name. -/

namespace Sys2Proof

/-- Why a decoder reads no instruction. -/
inductive Reject where
  /-- The command stream is empty: there is no command word yet (R114, R115). -/
  | noCommandWord
  /-- Fewer than LEN operand words have arrived after the command word (R120, U8). -/
  | operandsMissing
  /-- A µop byte whose KIND takes no R and whose R field is not 0 (R58, U7). -/
  | uopFieldNotZero
  deriving DecidableEq, Repr

/-- The LEN field `cmd[15:8]` (R49). -/
def cmdLen (cmd : StreamWord) : BitVec 8 := cmd.extractLsb' 8 8

/-- The RSV field `cmd[7:2]` (R49). -/
def cmdRsv (cmd : StreamWord) : BitVec 6 := cmd.extractLsb' 2 6

/-- The OP field `cmd[1:0]` (R49). -/
def cmdOp (cmd : StreamWord) : BitVec 2 := cmd.extractLsb' 0 2

/-- Take exactly `n` words from the front of a stream, if that many are there: `n` times `take()`
(R33, R53). -/
def takeWords : Nat → List StreamWord → Option (List StreamWord × List StreamWord)
  | 0, ws => some ([], ws)
  | _ + 1, [] => none
  | n + 1, w :: ws =>
    match takeWords n ws with
    | some (es, rest) => some (w :: es, rest)
    | none => none

/-- The command that a command word and its operand words make (R54, R56). -/
def commandOf (cmd : StreamWord) (es : List StreamWord) : Instr :=
  match (cmdOp cmd).toNat with
  | 0 => if cmdRsv cmd = 0 then .loadkey es else .illegalRsv (cmdRsv cmd) 0 es
  | 1 => if cmdRsv cmd = 0 then .encrypt es else .illegalRsv (cmdRsv cmd) 1 es
  | 2 => if cmdRsv cmd = 0 then .decrypt es else .illegalRsv (cmdRsv cmd) 2 es
  | _ => .illegalOp3 (cmdRsv cmd) es

/-- Decode the command at the front of the command stream, and what follows it: the command word,
then exactly LEN operand words "always", and only then the command (R53, R55). -/
def decodeCommand : List StreamWord → Except Reject (Instr × List StreamWord)
  | [] => .error .noCommandWord
  | cmd :: ws =>
    match takeWords (cmdLen cmd).toNat ws with
    | none => .error .operandsMissing
    | some (es, rest) => .ok (commandOf cmd es, rest)

/-- The KIND field `u[3:0]` of a µop byte (R58). -/
def uopKind (u : Byte) : BitVec 4 := u.extractLsb' 0 4

/-- The R field `u[7:4]` of a µop byte (R58). -/
def uopR (u : Byte) : BitVec 4 := u.extractLsb' 4 4

/-- A µop whose KIND has no R operand: "0 for every other KIND" (R58). -/
def plainUop (u : Byte) (i : Instr) : Except Reject Instr :=
  if uopR u = 0 then .ok i else .error .uopFieldNotZero

/-- Decode a µop byte (R58). ARK and KEXP keep the R field as it stands; an R out of their range
makes an ill-formed term (WellFormed), which its meaning refuses by name. -/
def decodeUop (u : Byte) : Except Reject Instr :=
  match (uopKind u).toNat with
  | 0x0 => .ok (.uopArk (uopR u))
  | 0x1 => plainUop u .uopSub
  | 0x2 => plainUop u .uopIsub
  | 0x3 => plainUop u .uopSr
  | 0x4 => plainUop u .uopIsr
  | 0x5 => plainUop u .uopMc
  | 0x6 => plainUop u .uopImc
  | 0x7 => .ok (.uopKexp (uopR u))
  | 0x8 => plainUop u .uopLdst
  | 0x9 => plainUop u .uopOutst
  | 0xA => plainUop u .uopLdkey
  | _ => .ok (.uopReserved (uopR u) (uopKind u))

/-! The encoder. -/

/-- What an instruction is encoded as: the words of a command on the command stream (format CMD and
its OPND words), or the byte of a µop (format UOP). -/
inductive Code where
  | command (ws : List StreamWord)
  | uop (u : Byte)
  deriving DecidableEq, Repr

/-- A command word from its fields (R49). -/
def cmdWord (len : BitVec 8) (rsv : BitVec 6) (op : BitVec 2) : StreamWord := (len ++ rsv) ++ op

/-- The words of a command: its command word with LEN the number of its operand words, then those
words (R48). -/
def commandWords (rsv : BitVec 6) (op : BitVec 2) (es : List StreamWord) : List StreamWord :=
  cmdWord (BitVec.ofNat 8 es.length) rsv op :: es

/-- A µop's byte is `(R << 4) | KIND` (R58). -/
def uopByte (r kind : BitVec 4) : Byte := r ++ kind

/-- The encoding of an instruction (R49, R54, R56, R58). -/
def encode : Instr → Code
  | .loadkey es => .command (commandWords 0 0 es)
  | .encrypt es => .command (commandWords 0 1 es)
  | .decrypt es => .command (commandWords 0 2 es)
  | .illegalOp3 rsv es => .command (commandWords rsv 3 es)
  | .illegalRsv rsv op es => .command (commandWords rsv op es)
  | .uopArk r => .uop (uopByte r 0x0)
  | .uopSub => .uop (uopByte 0 0x1)
  | .uopIsub => .uop (uopByte 0 0x2)
  | .uopSr => .uop (uopByte 0 0x3)
  | .uopIsr => .uop (uopByte 0 0x4)
  | .uopMc => .uop (uopByte 0 0x5)
  | .uopImc => .uop (uopByte 0 0x6)
  | .uopKexp r => .uop (uopByte r 0x7)
  | .uopLdst => .uop (uopByte 0 0x8)
  | .uopOutst => .uop (uopByte 0 0x9)
  | .uopLdkey => .uop (uopByte 0 0xA)
  | .uopReserved r kind => .uop (uopByte r kind)

/-! The opcode table's numbering of bits: bit 0 is the least significant bit of the first word. -/

/-- The stream words of the command whose bits are `w`: the command word is bits 15..0, operand word
`j` is bits `16(j+1)+15 .. 16(j+1)`, as many operand words as LEN says. -/
def tableWords (w : Nat) : List StreamWord :=
  (List.range (1 + (cmdLen (BitVec.ofNat 16 w)).toNat)).map
    (fun j => BitVec.ofNat 16 (w >>> (16 * j)))

/-- The instruction that the decoder reads from the instruction whose bits are `w`, numbered as the
opcode table numbers them: a row of 8 bits is a µop byte, a longer one a command. -/
def decodeTableWord (nbits w : Nat) : Option Instr :=
  if nbits ≤ 8 then
    match decodeUop (BitVec.ofNat 8 (w % 2 ^ nbits)) with
    | .ok i => some i
    | .error _ => none
  else
    match decodeCommand (tableWords (w % 2 ^ nbits)) with
    | .ok (i, _) => some i
    | .error _ => none

end Sys2Proof
end

