-- ==== Sys2Proof/Config.lean ====
section
/-! DEFINITION. What the implementation fixes (spec/00_scope.md R8), and the free values: what
the spec leaves unspecified (spec/93_implementation_defined.md U1, U2) or open (U3). A free value
is a constant with no body, so that no proof can see what it is. -/

namespace Sys2Proof.Config

/-- `NB`: bytes per block (R8). -/
abbrev NB : Nat := 16
/-- `NK`: bytes per key (R8). -/
abbrev NK : Nat := 16
/-- `NR`: rounds (R8). -/
abbrev NR : Nat := 10
/-- `NRK`: round keys, indices 0..10 (R8). -/
abbrev NRK : Nat := 11
/-- `NRCON`: round constants, indices 0..9 (R8). -/
abbrev NRCON : Nat := 10
/-- `W`: the width of a stream word in bits (R8). -/
abbrev W : Nat := 16
/-- The width of the LEN field in bits (R8). -/
abbrev lenWidth : Nat := 8
/-- Key slots (R8): State holds one round-key store. -/
abbrev keySlots : Nat := 1

/-- `LATENCY` (R8, R122, U3): cycles from the last operand word of the `n`-th command to its status
word. OPEN in the spec: any finite number, so it has no body here. No rule depends on it and no
definition of the model reads it (the model is transaction-level, R7). Log entry 5. -/
opaque latency : Nat → Nat

/-- Free value (U2): what the working State `ST` holds after a command or a reset. Log entry 3. -/
opaque freeState : Nat → Block
/-- Free value (U2): what the temporary word `TW` holds after a command or a reset. Log entry 3. -/
opaque freeTemp : Nat → KeyWord
/-- Free value: what the operand-byte latch holds after a command or a reset. Log entry 4. -/
opaque freeOperands : Nat → Block
/-- Free value (U1): what the round-key store holds after a reset event. Log entry 2. -/
opaque freeRoundKeys : Nat → RoundKeys

end Sys2Proof.Config
end

