-- ==== Sys2Proof/Machine/State.lean ====
section
/-! DEFINITION. Everything the spec gives the machine (spec/10_state.md R16 to R31), the reasons a
step can stop, and the state right after reset. -/

namespace Sys2Proof.Machine

/-- The host's three commands that can run a schedule (R54). -/
inductive Cmd where
  | loadkey
  | encrypt
  | decrypt
  deriving DecidableEq, Repr

/-- The outcome of a command, the CODE field of its status word (R102). CODE 6 and 7 are reserved
and never produced, so there is no constructor for them (U4). -/
inductive StatusCode where
  | ok
  | invalidKeyLength
  | invalidBlockLength
  | invalidByteValue
  | keyNotLoaded
  | illegalCommand
  deriving DecidableEq, Repr

/-- The running command: which it is, the µop bytes of its schedule, and the step index `UPC` that
walks them (R27). -/
structure Sequencer where
  /-- The command whose schedule runs. -/
  cmd : Cmd
  /-- The µop bytes of the schedule (R90, R94, R96). -/
  sched : List Byte
  /-- `UPC`: 0 when the command begins, the schedule's length when it ends (R27). -/
  upc : Nat
  deriving DecidableEq, Repr

/-- The state of the core. -/
structure State where
  /-- `KEY_VALID` (R17). -/
  keyValid : Bool
  /-- The round-key store `RK[0..10]` (R18). -/
  rk : RoundKeys
  /-- The hidden working State `ST[0..15]` (R28). -/
  st : Block
  /-- The hidden temporary word `TW` (R29). -/
  tw : KeyWord
  /-- The operand bytes `byte[0..15]` of the running command (R52, R92). -/
  opnd : Block
  /-- `UPC` with the schedule it walks (R27); `none` is idle, no command running (R31). -/
  seq : Option Sequencer
  /-- The command stream: words the host sent and the core has not taken, oldest first (R33). -/
  cmdStream : List StreamWord
  /-- The response stream: words the core emitted and the host has not read, oldest first (R33). -/
  rspStream : List StreamWord
  /-- The model's own: how many free values have been drawn. It is no state of the hardware. -/
  free : Nat
  deriving DecidableEq, Repr

/-- Why the machine makes no step. -/
inductive Fault where
  /-- Raised by `step` when no command runs and the command stream is empty: the core waits for a
  command word (R114). Safe: no state changes, and the run goes on when the host sends words. -/
  | waitingForCommand
  /-- Raised by `step` when the command word has arrived and some of its LEN operand words have not:
  the core waits (R120, U8 "stuck"). Safe, for the same reason. -/
  | waitingForOperands
  deriving DecidableEq, Repr

/-- Why an instruction has no meaning. -/
inductive Refusal where
  /-- Raised by an arm of `exec` that has no meaning yet. Safe. -/
  | notModelled (mnemonic : String)
  /-- Raised by the meaning of a µop with KIND 0xB..0xF: "never in a schedule; a model refuses it"
  (R58, U7). Safe. -/
  | reservedUop
  /-- Raised by ARK with R above 10 and by KEXP with R outside 1..10: "a model refuses any other µop
  byte" (R58, U7). Safe. -/
  | uopIndexOutOfRange
  /-- Raised by the sequencer for a µop byte whose KIND takes no R and whose R is not 0 (R58, U7).
  Safe. -/
  | uopFieldNotZero
  /-- Raised by the sequencer if a schedule held a host command; no µop byte decodes to one. Safe. -/
  | commandInSchedule
  deriving DecidableEq, Repr

/-- The state right after reset (R31): `KEY_VALID` 0, no command running, both streams empty. `RK`,
`ST` and `TW` are unspecified after reset; the zeros here are the model's (DESIGN CHOICE, log
entries 2 to 4), and no statement rests on them. -/
def State.reset : State where
  keyValid := false
  rk := Vector.replicate 11 (Vector.replicate 16 0)
  st := Vector.replicate 16 0
  tw := Vector.replicate 4 0
  opnd := Vector.replicate 16 0
  seq := none
  cmdStream := []
  rspStream := []
  free := 0

/-- The outcome of a step of this machine. -/
abbrev Result := Host.Outcome State Fault Refusal

end Sys2Proof.Machine
end

