-- ==== Sys2Proof/Machine/Ops.lean ====
section
/-! DEFINITION. The shared operations: bytes, columns and blocks (spec/00_scope.md R11 to R15), the
two streams (spec/20_memory.md R33), the error response (spec/60_exceptions.md R104), the begin and the
end of a command (spec/10_state.md R27, spec/43_cipher_and_commands.md R98), and what the host can do
to the core: send, read, reset (spec/70_reset_and_hazards.md R115, R120). -/

namespace Sys2Proof.Machine

/-! Bytes, columns, blocks. -/

/-- The block whose byte `i` is `f i`: `for i in 0..15: out[i] <- f(i)`. The whole block is one write,
so `f` reads the input as it was before (R73). -/
def blockOf (f : Fin 16 → Byte) : Block :=
  #v[f 0, f 1, f 2, f 3, f 4, f 5, f 6, f 7, f 8, f 9, f 10, f 11, f 12, f 13, f 14, f 15]

/-- The word whose byte `t` is `f t`. -/
def wordOf (f : Fin 4 → Byte) : KeyWord := #v[f 0, f 1, f 2, f 3]

/-- Column `c` of a block: its bytes `4c .. 4c+3` (R11); also word `c` (R12). -/
def column (s : Block) (c : Fin 4) : KeyWord := wordOf fun t => s[4 * c.val + t.val]

/-- The block whose column `c` is `f c`. -/
def blockOfColumns (f : Fin 4 → KeyWord) : Block :=
  blockOf fun i => (f ⟨i.val / 4, by omega⟩)[i.val % 4]

/-- `A ^ B` on blocks, bytewise (R15). -/
def xorBlock (a b : Block) : Block := blockOf fun i => a[i.val] ^^^ b[i.val]

/-- `A ^ B` on words, bytewise (R15). -/
def xorWord (a b : KeyWord) : KeyWord := wordOf fun t => a[t.val] ^^^ b[t.val]

/-! The streams. `take()` is Decode's `takeWords`, on the front of the command stream. -/

/-- A byte as a stream word, `zext_16` (R14, R51). -/
def dataWord (b : Byte) : StreamWord := b.zeroExtend 16

/-- `emit(w)` for each of `ws` in order: append to the response stream (R33). -/
def emit (ws : List StreamWord) (s : State) : State := { s with rspStream := s.rspStream ++ ws }

/-- The 16 DATA words of a block, byte 0 first (R35, R51). -/
def dataWords (b : Block) : List StreamWord := b.toList.map dataWord

/-! Outcomes. -/

/-- Go on with the next state; a fault or a refusal stays. -/
def andThen (o : Result) (k : State → Result) : Result :=
  match o with
  | .next s => k s
  | .fault r => .fault r
  | .refused r => .refused r

/-! The begin and the end of a command. -/

/-- The command begins: `UPC` at 0 on the command's schedule (R27), its operand bytes latched (R52). -/
def beginCommand (cmd : Cmd) (sched : List Byte) (bytes : Block) (s : State) : State :=
  { s with opnd := bytes, seq := some { cmd := cmd, sched := sched, upc := 0 } }

/-- `UPC` "advances by exactly 1 after each µop" (R27). -/
def advanceUpc (s : State) : State :=
  { s with seq := s.seq.map fun q => { q with upc := q.upc + 1 } }

/-- No command runs any more: `UPC` is idle (R31), and the hidden working state is unspecified (R28,
R29, U2): each piece holds a free value. -/
def releaseWorking (s : State) : State :=
  { s with
    st := Config.freeState s.free
    tw := Config.freeTemp s.free
    opnd := Config.freeOperands s.free
    seq := none
    free := s.free + 1 }

/-- What a command does after its schedule: LOADKEY sets `KEY_VALID` and emits its status word
`0x0100` (R98); ENCRYPT and DECRYPT have emitted theirs in OUTST (R92). Then the command has ended. -/
def endCommand (cmd : Cmd) (s : State) : State :=
  match cmd with
  | .loadkey => releaseWorking (emit [0x0100] { s with keyValid := true })
  | .encrypt => releaseWorking s
  | .decrypt => releaseWorking s

/-! The host's side of the streams, and the reset event. -/

/-- The host sends words on the command stream (R33). It can do so between any two steps. -/
def hostSend (ws : List StreamWord) (s : State) : State :=
  { s with cmdStream := s.cmdStream ++ ws }

/-- The host reads the next response word, if there is one (R33). -/
def hostRead (s : State) : Option (StreamWord × State) :=
  match s.rspStream with
  | [] => none
  | w :: ws => some (w, { s with rspStream := ws })

/-- The reset event, at any time, also while a command runs (R115, R116): `KEY_VALID` 0, idle, both
streams emptied; `RK`, `ST`, `TW` unspecified, so they hold free values (U1, U2). -/
def hostReset (s : State) : State where
  keyValid := false
  rk := Config.freeRoundKeys s.free
  st := Config.freeState s.free
  tw := Config.freeTemp s.free
  opnd := Config.freeOperands s.free
  seq := none
  cmdStream := []
  rspStream := []
  free := s.free + 1

end Sys2Proof.Machine
end

