-- ==== Sys2Proof/Machine/Field.lean ====
section
/-! DEFINITION. GF(2^8) arithmetic with the reduction polynomial 0x11B (spec/40_tables_and_field.md
R61 to R64). -/

namespace Sys2Proof.Machine

/-- `xtime(b)`: `((b << 1) & 0xFF) ^ (if b[7] = 1 then 0x1B else 0x00)` (R61). -/
def xtime (b : Byte) : Byte := (b <<< 1) ^^^ (if b.getLsbD 7 then 0x1B else 0x00)

/-- `n` passes of the double-and-add loop on the product `p` and the operands `x`, `y` (R62). -/
def gmulLoop : Nat → Byte → Byte → Byte → Byte
  | 0, p, _, _ => p
  | n + 1, p, x, y => gmulLoop n (if y.getLsbD 0 then p ^^^ x else p) (xtime x) (y >>> 1)

/-- `gmul(a, b)`: eight passes (R62; 90_conflicts.md C3). -/
def gmul (a b : Byte) : Byte := gmulLoop 8 0 a b

/-- `t(x) = xtime(x) ^ x`, multiplication by 3 (R80). -/
def triple (b : Byte) : Byte := xtime b ^^^ b

end Sys2Proof.Machine
end

