-- ==== Sys2Proof/Machine/Round.lean ====
section
/-! DEFINITION. The state transformations as functions from the State before to the State after
(spec/41_round_transforms.md R73 to R82). Each output byte is computed from the unmodified input
(R73), since each is one `blockOf` over the input. -/

namespace Sys2Proof.Machine

/-- AddRoundKey: `out[i] <- in[i] ^ RK[k][i]` (R75). -/
def addRoundKey (s k : Block) : Block := xorBlock s k

/-- SubBytes with SBOX (R76). -/
def subBytes (s : Block) : Block := blockOf fun i => sbox s[i.val]

/-- SubBytes with INV_SBOX (R77). -/
def invSubBytes (s : Block) : Block := blockOf fun i => invSbox s[i.val]

/-- ShiftRows: `out[r + 4c] <- in[r + 4((c + r) mod 4)]`, row `r` rotated left by `r` (R78). -/
def shiftRows (s : Block) : Block :=
  blockOf fun i => s[i.val % 4 + 4 * ((i.val / 4 + i.val % 4) % 4)]

/-- InverseShiftRows: `out[r + 4c] <- in[r + 4((c + 4 - r) mod 4)]`, row `r` rotated right by `r`
(R79). -/
def invShiftRows (s : Block) : Block :=
  blockOf fun i => s[i.val % 4 + 4 * ((i.val / 4 + 4 - i.val % 4) % 4)]

/-- MixColumns on one column `(a0, a1, a2, a3)` (R80). -/
def mixColumn (a : KeyWord) : KeyWord :=
  #v[xtime a[0] ^^^ triple a[1] ^^^ a[2] ^^^ a[3],
     a[0] ^^^ xtime a[1] ^^^ triple a[2] ^^^ a[3],
     a[0] ^^^ a[1] ^^^ xtime a[2] ^^^ triple a[3],
     triple a[0] ^^^ a[1] ^^^ a[2] ^^^ xtime a[3]]

/-- MixColumns (R80). -/
def mixColumns (s : Block) : Block := blockOfColumns fun c => mixColumn (column s c)

/-- InverseMixColumns on one column, "every multiplication routed through GaloisField" (R81). -/
def invMixColumn (a : KeyWord) : KeyWord :=
  #v[gmul 0x0E a[0] ^^^ gmul 0x0B a[1] ^^^ gmul 0x0D a[2] ^^^ gmul 0x09 a[3],
     gmul 0x09 a[0] ^^^ gmul 0x0E a[1] ^^^ gmul 0x0B a[2] ^^^ gmul 0x0D a[3],
     gmul 0x0D a[0] ^^^ gmul 0x09 a[1] ^^^ gmul 0x0E a[2] ^^^ gmul 0x0B a[3],
     gmul 0x0B a[0] ^^^ gmul 0x0D a[1] ^^^ gmul 0x09 a[2] ^^^ gmul 0x0E a[3]]

/-- InverseMixColumns (R81). -/
def invMixColumns (s : Block) : Block := blockOfColumns fun c => invMixColumn (column s c)

/-- The matrix whose row `r` is `first` rotated right by `r` places. The matrices of R80 and R81 have this
shape: R81 calls its rows "`0E 0B 0D 09` rotated". -/
def circulant (first : KeyWord) : Vector KeyWord 4 :=
  let row (r : Nat) : KeyWord := wordOf fun c => first[(c.val + 4 - r) % 4]
  #v[row 0, row 1, row 2, row 3]

/-- The matrix of MixColumns (R80), row by row. -/
def mixMatrix : Vector KeyWord 4 := circulant #v[0x02, 0x03, 0x01, 0x01]

/-- The matrix of InverseMixColumns (R81), row by row. -/
def invMixMatrix : Vector KeyWord 4 := circulant #v[0x0E, 0x0B, 0x0D, 0x09]

end Sys2Proof.Machine
end

