-- ==== Sys2Proof/Machine/KeySchedule.lean ====
section
/-! DEFINITION. The key expander as functions (spec/42_key_schedule.md R84 to R91). Round `r` (1..10)
is given by the index `i = r - 1` of its round constant, 0..9 (R71). -/

namespace Sys2Proof.Machine

/-- `RotWord([w0, w1, w2, w3]) = [w1, w2, w3, w0]` (R84). -/
def rotWord (w : KeyWord) : KeyWord := #v[w[1], w[2], w[3], w[0]]

/-- SubWord: each byte through the forward S-box (R85). -/
def subWord (w : KeyWord) : KeyWord := wordOf fun t => sbox w[t.val]

/-- The round-constant step of round `i + 1`: byte 0 is XORed with `RCON[i]` (R86). -/
def rconStep (i : Fin 10) (w : KeyWord) : KeyWord := #v[w[0] ^^^ rcon i, w[1], w[2], w[3]]

/-- What KEXP of round `i + 1` leaves in `TW`: the last word of `P`, rotated, substituted, and the
round constant added (R87). -/
def kexpTemp (i : Fin 10) (p : Block) : KeyWord := rconStep i (subWord (rotWord (column p 3)))

/-- "a running XOR chain across the four words": from `TW` and `P` to `N` (R87). -/
def kexpChain (p : Block) (tw : KeyWord) : Block :=
  let n0 := xorWord (column p 0) tw
  let n1 := xorWord (column p 1) n0
  let n2 := xorWord (column p 2) n1
  let n3 := xorWord (column p 3) n2
  blockOfColumns fun c => #v[n0, n1, n2, n3][c.val]

/-- The round key after `P = RK[i]` (R87). -/
def nextRoundKey (i : Fin 10) (p : Block) : Block := kexpChain p (kexpTemp i p)

/-- `KeyExpansion(key)`: the 11 round keys (R88). It reads nothing but the key (R91). -/
def expandKey (key : Block) : RoundKeys :=
  let k1 := nextRoundKey 0 key
  let k2 := nextRoundKey 1 k1
  let k3 := nextRoundKey 2 k2
  let k4 := nextRoundKey 3 k3
  let k5 := nextRoundKey 4 k4
  let k6 := nextRoundKey 5 k5
  let k7 := nextRoundKey 6 k6
  let k8 := nextRoundKey 7 k7
  let k9 := nextRoundKey 8 k8
  let k10 := nextRoundKey 9 k9
  #v[key, k1, k2, k3, k4, k5, k6, k7, k8, k9, k10]

/-- The word view of the store: `w[4r + j]` is word `j` of `RK[r]` (R19). -/
def keyWordAt (rk : RoundKeys) (n : Fin 44) : KeyWord :=
  column (rk[n.val / 4]) ⟨n.val % 4, by omega⟩

end Sys2Proof.Machine
end

