-- ==== Sys2Proof/Machine/Cipher.lean ====
section
/-! DEFINITION. The orchestrator: the cipher and its inverse as functions (spec/43_cipher_and_commands.md
R93, R95), and the µop schedules of the three commands as the spec writes them out
(spec/42_key_schedule.md R90; R94, R96). -/

namespace Sys2Proof.Machine

/-- One of rounds 1..9 of the forward cipher (R93). -/
def encryptRound (k s : Block) : Block := addRoundKey (mixColumns (shiftRows (subBytes s))) k

/-- `encrypt(RK, B)` (R93). -/
def encryptBlock (rk : RoundKeys) (b : Block) : Block :=
  let s0 := addRoundKey b rk[0]
  let s1 := encryptRound rk[1] s0
  let s2 := encryptRound rk[2] s1
  let s3 := encryptRound rk[3] s2
  let s4 := encryptRound rk[4] s3
  let s5 := encryptRound rk[5] s4
  let s6 := encryptRound rk[6] s5
  let s7 := encryptRound rk[7] s6
  let s8 := encryptRound rk[8] s7
  let s9 := encryptRound rk[9] s8
  addRoundKey (shiftRows (subBytes s9)) rk[10]

/-- One of the nine middle steps of the inverse cipher, r = 9 downto 1 (R95). -/
def decryptRound (k s : Block) : Block :=
  invSubBytes (invShiftRows (invMixColumns (addRoundKey s k)))

/-- `decrypt(RK, B)` (R95). -/
def decryptBlock (rk : RoundKeys) (b : Block) : Block :=
  let s10 := invSubBytes (invShiftRows (addRoundKey b rk[10]))
  let s9 := decryptRound rk[9] s10
  let s8 := decryptRound rk[8] s9
  let s7 := decryptRound rk[7] s8
  let s6 := decryptRound rk[6] s7
  let s5 := decryptRound rk[5] s6
  let s4 := decryptRound rk[4] s5
  let s3 := decryptRound rk[3] s4
  let s2 := decryptRound rk[2] s3
  let s1 := decryptRound rk[1] s2
  addRoundKey s1 rk[0]

/-- The 11 µops of a successful LOADKEY (R90). -/
def loadkeySchedule : List Byte := [0x0A] ++ [0x17, 0x27, 0x37, 0x47, 0x57, 0x67, 0x77, 0x87, 0x97, 0xA7]

/-- The 42 µops of a successful ENCRYPT (R94). -/
def encryptSchedule : List Byte :=
  [0x08, 0x00] ++ [0x01, 0x03, 0x05, 0x10] ++ [0x01, 0x03, 0x05, 0x20] ++ [0x01, 0x03, 0x05, 0x30] ++
  [0x01, 0x03, 0x05, 0x40] ++ [0x01, 0x03, 0x05, 0x50] ++ [0x01, 0x03, 0x05, 0x60] ++
  [0x01, 0x03, 0x05, 0x70] ++ [0x01, 0x03, 0x05, 0x80] ++ [0x01, 0x03, 0x05, 0x90] ++
  [0x01, 0x03, 0xA0] ++ [0x09]

/-- The 42 µops of a successful DECRYPT (R96). -/
def decryptSchedule : List Byte :=
  [0x08] ++ [0xA0, 0x04, 0x02] ++ [0x90, 0x06, 0x04, 0x02] ++ [0x80, 0x06, 0x04, 0x02] ++
  [0x70, 0x06, 0x04, 0x02] ++ [0x60, 0x06, 0x04, 0x02] ++ [0x50, 0x06, 0x04, 0x02] ++
  [0x40, 0x06, 0x04, 0x02] ++ [0x30, 0x06, 0x04, 0x02] ++ [0x20, 0x06, 0x04, 0x02] ++
  [0x10, 0x06, 0x04, 0x02] ++ [0x00] ++ [0x09]

/-- The schedule of a command (R90, R94, R96). -/
def schedule : Cmd → List Byte
  | .loadkey => loadkeySchedule
  | .encrypt => encryptSchedule
  | .decrypt => decryptSchedule

end Sys2Proof.Machine
end

