-- ==== Sys2Proof/Machine/Operands.lean ====
section
/-! DEFINITION. The operand forms: an element of a command's operand list and the bytes assembled
from the list (spec/30_encoding.md R50, R52; spec/20_memory.md R35, R36). -/

namespace Sys2Proof.Machine

/-- An element is a legal byte when `e[15:8] = 0` (R50); "a value above 0xFF" is not (R36). -/
def legalByte (e : StreamWord) : Bool := decide (e.toNat ≤ 0xFF)

/-- The byte an element carries, `e[7:0]` (R50). -/
def elementByte (e : StreamWord) : Byte := e.extractLsb' 0 8

/-- `byte[j] = e_j[7:0]` for `j` in 0..15 (R52). It is used only when there are 16 operand words; the
0 for a missing word is never read by a command. -/
def operandBytes (es : List StreamWord) : Block := blockOf fun j => elementByte (es.getD j.val 0)

end Sys2Proof.Machine
end

