-- ==== Sys2Proof/Machine/Flags.lean ====
section
/-! DEFINITION. The status: the codes, the status word, and the checks that give a command its code
(spec/10_state.md R23; spec/60_exceptions.md R102, R103, R104). -/

namespace Sys2Proof.Machine

/-- The number of a status code (R102). -/
def codeNumber : StatusCode → BitVec 3
  | .ok => 0
  | .invalidKeyLength => 1
  | .invalidBlockLength => 2
  | .invalidByteValue => 3
  | .keyNotLoaded => 4
  | .illegalCommand => 5

/-- The status word: CODE in `[2:0]`, KV in `[8]`, every other bit 0 (R23):
`zext_16(KEY_VALID) << 8 | zext_16(code)` (R104). -/
def statusWord (code : StatusCode) (kv : Bool) : StreamWord :=
  ((BitVec.ofBool kv).zeroExtend 16 <<< 8) ||| (codeNumber code).zeroExtend 16

/-- How a host reads a response's first word (R23, R102): its code and KV; `none` for a word that is
not a status of this core: CODE 6 or 7, or a reserved bit set (U4, U5). -/
def readStatus (w : StreamWord) : Option (StatusCode × Bool) :=
  if w.extractLsb' 3 5 = 0 ∧ w.extractLsb' 9 7 = 0 then
    match (w.extractLsb' 0 3).toNat with
    | 0 => some (.ok, w.getLsbD 8)
    | 1 => some (.invalidKeyLength, w.getLsbD 8)
    | 2 => some (.invalidBlockLength, w.getLsbD 8)
    | 3 => some (.invalidByteValue, w.getLsbD 8)
    | 4 => some (.keyNotLoaded, w.getLsbD 8)
    | 5 => some (.illegalCommand, w.getLsbD 8)
    | _ => none
  else none

/-- The checks of one command, in order; "the first that fails gives the command's only code"
(R103). -/
def check (op : BitVec 2) (rsv : BitVec 6) (es : List StreamWord) (kv : Bool) : StatusCode :=
  if op = 3 ∨ rsv ≠ 0 then .illegalCommand
  else if es.length ≠ 16 then
    (if op = 0 then .invalidKeyLength else .invalidBlockLength)
  else if es.any (fun e => !legalByte e) then .invalidByteValue
  else if op ≠ 0 ∧ kv = false then .keyNotLoaded
  else .ok

/-- How every failed command ends (R104): no persistent state changes, no µop runs, and exactly one
response word is emitted. It is the core's whole error mechanism: there is no trap (R108). -/
def failCommand (code : StatusCode) (s : State) : State := emit [statusWord code s.keyValid] s

end Sys2Proof.Machine
end

