-- ==== Sys2Proof/Machine/Uop.lean ====
section
/-! DEFINITION. The meaning of each µop (spec/41_round_transforms.md R75 to R81;
spec/42_key_schedule.md R87; spec/43_cipher_and_commands.md R92). Each reads and writes the hidden
state of spec/10_state.md; the step adds the advance of `UPC`. -/

namespace Sys2Proof.Machine

/-- ARK r: `ST <- ST ^ RK[r]`, `r` in 0..10 (R75). Another R is no µop of the spec (R58). -/
def execUopArk (r : BitVec 4) (s : State) : Result :=
  if h : r.toNat ≤ 10 then .next { s with st := addRoundKey s.st (s.rk[r.toNat]'(by omega)) }
  else .refused .uopIndexOutOfRange

/-- SUB (R76). -/
def execUopSub (s : State) : Result := .next { s with st := subBytes s.st }

/-- ISUB (R77). -/
def execUopIsub (s : State) : Result := .next { s with st := invSubBytes s.st }

/-- SR (R78). -/
def execUopSr (s : State) : Result := .next { s with st := shiftRows s.st }

/-- ISR (R79). -/
def execUopIsr (s : State) : Result := .next { s with st := invShiftRows s.st }

/-- MC (R80). -/
def execUopMc (s : State) : Result := .next { s with st := mixColumns s.st }

/-- IMC (R81). -/
def execUopImc (s : State) : Result := .next { s with st := invMixColumns s.st }

/-- KEXP r: from `P = RK[r-1]`, `TW` and `RK[r]` are written, `r` in 1..10 (R87). R29 leaves the value
of `TW` between two rounds unspecified; that it keeps what this round wrote is the model's choice
(DESIGN CHOICE, log entry 15). Another R is no µop of the spec (R58; log entry 12). -/
def execUopKexp (r : BitVec 4) (s : State) : Result :=
  if h : 1 ≤ r.toNat ∧ r.toNat ≤ 10 then
    let p := s.rk[r.toNat - 1]'(by omega)
    let tw := kexpTemp ⟨r.toNat - 1, by omega⟩ p
    .next { s with tw := tw, rk := s.rk.set r.toNat (kexpChain p tw) (by omega) }
  else .refused .uopIndexOutOfRange

/-- LDST: `ST[j] <- byte[j]` (R92). -/
def execUopLdst (s : State) : Result := .next { s with st := s.opnd }

/-- OUTST: emit `0x0100`, then the 16 data words of `ST` (R92; 90_conflicts.md C8). -/
def execUopOutst (s : State) : Result := .next (emit (0x0100 :: dataWords s.st) s)

/-- LDKEY: `RK[0][j] <- byte[j]` (R92). -/
def execUopLdkey (s : State) : Result := .next { s with rk := s.rk.set 0 s.opnd }

/-- A reserved µop: "reserved, never in a schedule; a model refuses it" (opcode table, R58, U7). -/
def execUopReserved (_r _kind : BitVec 4) (_s : State) : Result := .refused .reservedUop

end Sys2Proof.Machine
end

