-- ==== Sys2Proof/Machine/Sequencer.lean ====
section
/-! DEFINITION. The sequencer that walks a schedule of µops (spec/10_state.md R27). -/

namespace Sys2Proof.Machine

/-- The µop that an instruction stands for; a host command is none, and no µop byte decodes to one. -/
def execUop (i : Instr) (s : State) : Result :=
  match i with
  | .uopArk r => execUopArk r s
  | .uopSub => execUopSub s
  | .uopIsub => execUopIsub s
  | .uopSr => execUopSr s
  | .uopIsr => execUopIsr s
  | .uopMc => execUopMc s
  | .uopImc => execUopImc s
  | .uopKexp r => execUopKexp r s
  | .uopLdst => execUopLdst s
  | .uopOutst => execUopOutst s
  | .uopLdkey => execUopLdkey s
  | .uopReserved r kind => execUopReserved r kind s
  | .loadkey _ => .refused .commandInSchedule
  | .encrypt _ => .refused .commandInSchedule
  | .decrypt _ => .refused .commandInSchedule
  | .illegalOp3 _ _ => .refused .commandInSchedule
  | .illegalRsv _ _ _ => .refused .commandInSchedule

/-- Run the µop of a byte, and advance `UPC` by 1 (R27). -/
def runUop (u : Byte) (s : State) : Result :=
  match decodeUop u with
  | .ok i => andThen (execUop i s) fun t => .next (advanceUpc t)
  | .error _ => .refused .uopFieldNotZero

/-- Run the µops of a list in order: `UPC` "never branches" (R27). -/
def runUops : List Byte → State → Result
  | [], s => .next s
  | u :: us, s => andThen (runUop u s) (runUops us)

/-- A command's whole run, one atomic step (R7, R38): begin, every µop of its schedule in order, end. -/
def runCommand (cmd : Cmd) (bytes : Block) (s : State) : Result :=
  andThen (runUops (schedule cmd) (beginCommand cmd (schedule cmd) bytes s)) fun t =>
    .next (endCommand cmd t)

/-- One step of a running command, seen from inside: the µop at `UPC`, or, when `UPC` equals the
schedule's length, the command's end (R27). -/
def sequencerStep (q : Sequencer) (s : State) : Result :=
  match q.sched[q.upc]? with
  | some u => runUop u s
  | none => .next (endCommand q.cmd s)

end Sys2Proof.Machine
end

