-- ==== Sys2Proof/Machine/Command.lean ====
section
/-! DEFINITION. The meaning of each host command, after its command word and its operand words have
been taken (spec/43_cipher_and_commands.md R98 to R101; spec/30_encoding.md R55). -/

namespace Sys2Proof.Machine

/-- A command with a legal OP: `check`, and then either its error response or its run (R55). -/
def checkedCommand (cmd : Cmd) (op : BitVec 2) (es : List StreamWord) (s : State) : Result :=
  match check op 0 es s.keyValid with
  | .ok => runCommand cmd (operandBytes es) s
  | code => .next (failCommand code s)

/-- LOADKEY (R98). -/
def execLoadkey (es : List StreamWord) (s : State) : Result := checkedCommand .loadkey 0 es s

/-- ENCRYPT (R99). -/
def execEncrypt (es : List StreamWord) (s : State) : Result := checkedCommand .encrypt 1 es s

/-- DECRYPT (R100). -/
def execDecrypt (es : List StreamWord) (s : State) : Result := checkedCommand .decrypt 2 es s

/-- A command word with OP = 3: "IllegalCommand always", its operand words "taken and ignored"
(R101). -/
def execIllegalOp3 (_rsv : BitVec 6) (_es : List StreamWord) (s : State) : Result :=
  .next (failCommand .illegalCommand s)

/-- A command word with RSV ≠ 0: "IllegalCommand always" (R101). -/
def execIllegalRsv (_rsv : BitVec 6) (_op : BitVec 2) (_es : List StreamWord) (s : State) : Result :=
  .next (failCommand .illegalCommand s)

end Sys2Proof.Machine
end

