-- ==== Sys2Proof/Machine/Dispatch.lean ====
section
/-! DEFINITION. One arm for each constructor of Instr. -/

namespace Sys2Proof.Machine

def exec (i : Instr) (s : State) : Host.Outcome State Fault Refusal :=
  match i with
  | .loadkey es => Sys2Proof.Machine.execLoadkey es s
  | .encrypt es => Sys2Proof.Machine.execEncrypt es s
  | .decrypt es => Sys2Proof.Machine.execDecrypt es s
  | .illegalOp3 rsv es => Sys2Proof.Machine.execIllegalOp3 rsv es s
  | .illegalRsv rsv op es => Sys2Proof.Machine.execIllegalRsv rsv op es s
  | .uopArk r => Sys2Proof.Machine.execUopArk r s
  | .uopSub => Sys2Proof.Machine.execUopSub s
  | .uopIsub => Sys2Proof.Machine.execUopIsub s
  | .uopSr => Sys2Proof.Machine.execUopSr s
  | .uopIsr => Sys2Proof.Machine.execUopIsr s
  | .uopMc => Sys2Proof.Machine.execUopMc s
  | .uopImc => Sys2Proof.Machine.execUopImc s
  | .uopKexp r => Sys2Proof.Machine.execUopKexp r s
  | .uopLdst => Sys2Proof.Machine.execUopLdst s
  | .uopOutst => Sys2Proof.Machine.execUopOutst s
  | .uopLdkey => Sys2Proof.Machine.execUopLdkey s
  | .uopReserved r kind => Sys2Proof.Machine.execUopReserved r kind s

end Sys2Proof.Machine
end

