-- ==== Sys2Proof/Machine/Step.lean ====
section
/-! DEFINITION. One step of the core. When no command runs, a step is one whole host command, from its
command word to its last response word (spec/00_scope.md R7; spec/20_memory.md R38, R42). When a command
runs, a step is one µop of its schedule (spec/10_state.md R27); no step from an idle state leads there,
since commands are atomic (log entry 6). -/

namespace Sys2Proof.Machine

/-- What a decoder's rejection means for a core that waits for a command. -/
def waitFor : Reject → Fault
  | .noCommandWord => .waitingForCommand
  | .operandsMissing => .waitingForOperands
  | .uopFieldNotZero => .waitingForCommand

/-- One step. -/
def step (s : State) : Host.Outcome State Fault Refusal :=
  match s.seq with
  | some q => sequencerStep q s
  | none =>
    match decodeCommand s.cmdStream with
    | .ok (i, rest) => exec i { s with cmdStream := rest }
    | .error r => .fault (waitFor r)

/-- `s` with the instruction whose bits are `w` where the next step finds it. A command (more than 8
bits): its words at the front of the command stream of an idle core. A µop (8 bits): a running
sequencer with `UPC` 0 on the one-µop schedule that holds it. -/
def State.withFetchWord (s : State) (nbits w : Nat) : State :=
  if nbits ≤ 8 then
    { s with seq := some { cmd := .encrypt, sched := [BitVec.ofNat 8 (w % 2 ^ nbits)], upc := 0 } }
  else
    { s with seq := none, cmdStream := tableWords (w % 2 ^ nbits) ++ s.cmdStream }

end Sys2Proof.Machine
end

