-- ==== Sys2Proof/Machine/Assembler.lean ====
section
/-! DEFINITION. The spec's assembly syntax, from a line's characters to stream words
(spec/30_encoding.md R59, R60; the hex notation of spec/00_scope.md R13), and a writer of lines beside
it. A text is a list of characters. -/

namespace Sys2Proof.Machine

/-! Characters and numbers. -/

/-- A letter in lower case: mnemonics are case-insensitive (R59). -/
def lowerChar (c : Char) : Char :=
  if 65 ≤ c.toNat ∧ c.toNat ≤ 90 then Char.ofNat (c.toNat + 32) else c

/-- A blank between tokens: a space or a tab (log entry 8). -/
def isBlank (c : Char) : Bool := c == ' ' || c == '\t'

/-- The value of a decimal digit. -/
def decDigit (c : Char) : Option Nat :=
  if 48 ≤ c.toNat ∧ c.toNat ≤ 57 then some (c.toNat - 48) else none

/-- The value of a hex digit in lower case. -/
def hexDigit (c : Char) : Option Nat :=
  if 97 ≤ c.toNat ∧ c.toNat ≤ 102 then some (c.toNat - 87) else decDigit c

/-- The value of a run of digits after the value `acc` so far. -/
def digitsFrom (base : Nat) (digit : Char → Option Nat) : Nat → List Char → Option Nat
  | acc, [] => some acc
  | acc, c :: cs =>
    match digit c with
    | some d => digitsFrom base digit (base * acc + d) cs
    | none => none

/-- A run of at least one digit. -/
def digits (base : Nat) (digit : Char → Option Nat) (cs : List Char) : Option Nat :=
  match cs with
  | [] => none
  | _ => digitsFrom base digit 0 cs

/-- "numbers in decimal or `0x` hex" (R59). -/
def number (cs : List Char) : Option Nat :=
  match cs with
  | '0' :: 'x' :: ds => digits 16 hexDigit ds
  | _ => digits 10 decDigit cs

/-! Tokens. -/

/-- The text without its leading blanks. -/
def dropBlanks : List Char → List Char
  | [] => []
  | c :: cs => if isBlank c then dropBlanks cs else c :: cs

/-- The text without its leading and trailing blanks. -/
def trim (cs : List Char) : List Char := (dropBlanks (dropBlanks cs).reverse).reverse

/-- The text up to the first character that `p` holds of, and what follows that character. -/
def cutAt (p : Char → Bool) : List Char → List Char × List Char
  | [] => ([], [])
  | c :: cs => if p c then ([], cs) else (c :: (cutAt p cs).1, (cutAt p cs).2)

/-- The pieces of a text between the characters that `p` holds of. -/
def pieces (p : Char → Bool) : List Char → List (List Char)
  | [] => [[]]
  | c :: cs =>
    if p c then [] :: pieces p cs
    else
      match pieces p cs with
      | [] => [[c]]
      | w :: ws => (c :: w) :: ws

/-- Every value, if there is one for each. -/
def allSome {α : Type} : List (Option α) → Option (List α)
  | [] => some []
  | none :: _ => none
  | some a :: rest =>
    match allSome rest with
    | some as => some (a :: as)
    | none => none

/-- The operand list of a line: numbers between commas; a blank text has no operand. -/
def operandList (cs : List Char) : Option (List Nat) :=
  match trim cs with
  | [] => some []
  | t => allSome ((pieces (· == ',') t).map fun p => number (trim p))

/-- A value below `bound`; the assembler "never truncates a value" (R59). -/
def inRange (bound n : Nat) : Bool := decide (n < bound)

/-! Commands. -/

/-- The words of a command with operands `es`: LEN is their number, 0..255, each 0..0xFFFF. "The
assembler does not check n = 16 or e ≤ 0xFF" (R59). -/
def asmCommand (rsv op : Nat) (es : List Nat) : Option (List StreamWord) :=
  if inRange 256 es.length ∧ es.all (inRange 65536) ∧ inRange 64 rsv ∧ inRange 4 op then
    some (commandWords (BitVec.ofNat 6 rsv) (BitVec.ofNat 2 op) (es.map (BitVec.ofNat 16)))
  else none

/-- The bytes of a hex string, two digits a byte from the left (R13). -/
def hexBytes : List Char → Option (List Nat)
  | [] => some []
  | [_] => none
  | h :: l :: cs =>
    match hexDigit h, hexDigit l, hexBytes cs with
    | some a, some b, some bs => some ((16 * a + b) :: bs)
    | _, _, _ => none

/-- A pseudo-instruction `X.H hhhh…`: 32 hex digits, the command of the 16 bytes (R60). -/
def asmHex (op : Nat) (cs : List Char) : Option (List StreamWord) :=
  match hexBytes cs with
  | some bs => if bs.length = 16 then asmCommand 0 op bs else none
  | none => none

/-- A raw command: `CMD op, rsv [, e0, …]` (R59). -/
def asmRaw : List Nat → Option (List StreamWord)
  | op :: rsv :: es => asmCommand rsv op es
  | _ => none

/-- A mnemonic that takes an operand list, with OP `op` and RSV 0. -/
def asmListed (op : Nat) (rest : List Char) : Option (List StreamWord) :=
  match operandList rest with
  | some es => asmCommand 0 op es
  | none => none

/-- The words of a line in lower case, without its comment, by its mnemonic. -/
def asmMnemonic (mnemonic rest : List Char) : Option (List StreamWord) :=
  if mnemonic = ['l', 'o', 'a', 'd', 'k', 'e', 'y'] then asmListed 0 rest
  else if mnemonic = ['e', 'n', 'c', 'r', 'y', 'p', 't'] then asmListed 1 rest
  else if mnemonic = ['d', 'e', 'c', 'r', 'y', 'p', 't'] then asmListed 2 rest
  else if mnemonic = ['l', 'o', 'a', 'd', 'k', 'e', 'y', '.', 'h'] then asmHex 0 (trim rest)
  else if mnemonic = ['e', 'n', 'c', 'r', 'y', 'p', 't', '.', 'h'] then asmHex 1 (trim rest)
  else if mnemonic = ['d', 'e', 'c', 'r', 'y', 'p', 't', '.', 'h'] then asmHex 2 (trim rest)
  else if mnemonic = ['c', 'm', 'd'] then
    match operandList rest with
    | some ns => asmRaw ns
    | none => none
  else none

/-- The words of one line: "one command per line", and "a `;` starts a comment that runs to the end of
the line" (R59). A line with no command has no words; a line that is not of the syntax has none
(`none`). -/
def asmLine (line : List Char) : Option (List StreamWord) :=
  match trim (cutAt (· == ';') line).1 with
  | [] => some []
  | t =>
    let split := cutAt isBlank (t.map lowerChar)
    asmMnemonic split.1 split.2

/-- The words of a text, line by line. -/
def asmText (text : List Char) : Option (List StreamWord) :=
  match allSome ((pieces (· == '\n') text).map asmLine) with
  | some wss => some wss.flatten
  | none => none

/-! Writing lines. -/

/-- The digit of a value below 16. -/
def hexChar (n : Nat) : Char := if n < 10 then Char.ofNat (48 + n) else Char.ofNat (87 + n)

/-- A number as `0x` and four hex digits (R13). -/
def hexNumber (w : StreamWord) : List Char :=
  ['0', 'x', hexChar (w.toNat / 4096), hexChar (w.toNat / 256 % 16), hexChar (w.toNat / 16 % 16),
    hexChar (w.toNat % 16)]

/-- A block as 32 hex digits, byte 0 first (R13). -/
def hexText (b : Block) : List Char :=
  b.toList.flatMap fun x => [hexChar (x.toNat / 16), hexChar (x.toNat % 16)]

/-- Operands after others: each with a comma before it. -/
def moreOperands (es : List StreamWord) : List Char := es.flatMap fun e => [',', ' '] ++ hexNumber e

/-- A first operand list. -/
def firstOperands : List StreamWord → List Char
  | [] => []
  | e :: es => hexNumber e ++ moreOperands es

/-- The line that stands for a command (R59); a µop has none ("no host can send" one, R58). -/
def lineOf : Instr → Option (List Char)
  | .loadkey es => some (['L', 'O', 'A', 'D', 'K', 'E', 'Y', ' '] ++ firstOperands es)
  | .encrypt es => some (['E', 'N', 'C', 'R', 'Y', 'P', 'T', ' '] ++ firstOperands es)
  | .decrypt es => some (['D', 'E', 'C', 'R', 'Y', 'P', 'T', ' '] ++ firstOperands es)
  | .illegalOp3 rsv es =>
    some (['C', 'M', 'D', ' '] ++ firstOperands (3 :: rsv.zeroExtend 16 :: es))
  | .illegalRsv rsv op es =>
    some (['C', 'M', 'D', ' '] ++ firstOperands (op.zeroExtend 16 :: rsv.zeroExtend 16 :: es))
  | .uopArk _ => none
  | .uopSub => none
  | .uopIsub => none
  | .uopSr => none
  | .uopIsr => none
  | .uopMc => none
  | .uopImc => none
  | .uopKexp _ => none
  | .uopLdst => none
  | .uopOutst => none
  | .uopLdkey => none
  | .uopReserved _ _ => none

/-- The line of a pseudo-instruction: `LOADKEY.H`, `ENCRYPT.H` or `DECRYPT.H` and the digits of a
block (R60). -/
def hexLineOf (op : Cmd) (b : Block) : List Char :=
  match op with
  | .loadkey => ['L', 'O', 'A', 'D', 'K', 'E', 'Y', '.', 'H', ' '] ++ hexText b
  | .encrypt => ['E', 'N', 'C', 'R', 'Y', 'P', 'T', '.', 'H', ' '] ++ hexText b
  | .decrypt => ['D', 'E', 'C', 'R', 'Y', 'P', 'T', '.', 'H', ' '] ++ hexText b

end Sys2Proof.Machine
end

