-- ==== Sys2Proof/Safety.lean ====
section
/-! DEFINITION. The terms the statements are written in: legal operands, idle and reset states, what a
host can tell apart, and the invariant of the key store. -/

namespace Sys2Proof.Machine

/-- Operands that pass the length and the byte check of R103: 16 words, each at most 0xFF. -/
def LegalOperands (es : List StreamWord) : Prop := es.length = 16 ∧ ∀ e ∈ es, e.toNat ≤ 0xFF

/-- No command runs: `UPC` is idle (R31). -/
def Idle (s : State) : Prop := s.seq = none

/-- What R31 says of the state after reset; `RK`, `ST`, `TW` are unspecified, so it says nothing of
them. -/
def IsReset (s : State) : Prop :=
  s.keyValid = false ∧ s.seq = none ∧ s.cmdStream = [] ∧ s.rspStream = []

/-- Two idle states that no host can tell apart: `KEY_VALID` and both streams agree, and `RK` agrees
where a command may read it, that is while `KEY_VALID` is 1 (R21, R30, R31). The hidden working state
and, without a key, `RK` may differ. -/
def SameVisible (s t : State) : Prop :=
  Idle s ∧ Idle t ∧ s.keyValid = t.keyValid ∧ (s.keyValid = true → s.rk = t.rk) ∧
    s.cmdStream = t.cmdStream ∧ s.rspStream = t.rspStream

/-- Two outcomes that no host can tell apart. -/
def SameOutcome (a b : Result) : Prop :=
  match a, b with
  | .next s, .next t => SameVisible s t
  | .fault r, .fault r' => r = r'
  | .refused r, .refused r' => r = r'
  | .next _, .fault _ => False
  | .next _, .refused _ => False
  | .fault _, .next _ => False
  | .fault _, .refused _ => False
  | .refused _, .next _ => False
  | .refused _, .fault _ => False

/-- The round-key store holds the expansion of its own round key 0 (R17, R18). -/
def HoldsExpansion (s : State) : Prop := s.rk = expandKey s.rk[0]

/-- A running command that keeps to the orchestrator: it walks its own command's schedule, `UPC` is
within it (R27), and the key store is as that point of the schedule leaves it: a LOADKEY has written
the round keys below `UPC` (R90), an ENCRYPT or DECRYPT runs only with a key loaded (R103). -/
def RunKeepsKeys (q : Sequencer) (s : State) : Prop :=
  q.sched = schedule q.cmd ∧ q.upc ≤ q.sched.length ∧
    match q.cmd with
    | .loadkey => ∀ (j : Nat) (hj : j < 11), j < q.upc → s.rk[j] = (expandKey s.opnd)[j]
    | .encrypt => s.keyValid = true ∧ HoldsExpansion s
    | .decrypt => s.keyValid = true ∧ HoldsExpansion s

/-- The invariant of the key store (R17): while no command runs, `KEY_VALID = 1` means that `RK` holds
an expansion; while one runs, it keeps to the orchestrator. -/
def KeysInv (s : State) : Prop :=
  match s.seq with
  | none => s.keyValid = true → HoldsExpansion s
  | some q => RunKeepsKeys q s

end Sys2Proof.Machine
end

