-- ==== Sys2Proof/Certificates/Slice0/Obligations.lean ====
section
/-! DEFINITION. The statements for the provers. Each docstring names the rules of spec/ it rests on. -/

open Sys2Proof Sys2Proof.Machine

/-! Encoding and decoding. -/

/-- 30_encoding.md, format CMD: LEN is `[15:8]`, RSV `[7:2]`, OP `[1:0]`, both in the encoder's command
word and in the fields the decoder reads. -/
def Obligations.CommandWordFieldsArePlaced : Prop :=
  (∀ (len : BitVec 8) (rsv : BitVec 6) (op : BitVec 2),
    (cmdWord len rsv op).toNat = 256 * len.toNat + 4 * rsv.toNat + op.toNat) ∧
  ∀ w : StreamWord, (cmdLen w).toNat = w.toNat / 256 ∧ (cmdRsv w).toNat = w.toNat / 4 % 64 ∧
    (cmdOp w).toNat = w.toNat % 4

/-- 30_encoding.md R54, R58 and the P1, P4 word lists of 95_test_vectors.md: a few words written out
from the spec's encodings decode to the instructions they stand for. -/
def Obligations.WrittenOutWordsDecode : Prop :=
  decodeTableWord 16 0x1001 = some (.encrypt (List.replicate 16 0)) ∧
  decodeTableWord 48 0x00FF00AB0202 = some (.decrypt [0x00AB, 0x00FF]) ∧
  decodeCommand [0x0003, 0x1004] = .ok (.illegalOp3 0 [], [0x1004]) ∧
  decodeCommand [0x0205, 0x0001, 0x0002, 0x0001] = .ok (.illegalRsv 1 1 [0x0001, 0x0002], [0x0001]) ∧
  decodeCommand [0x0000] = .ok (.loadkey [], []) ∧
  decodeUop 0xA0 = .ok (.uopArk 10) ∧ decodeUop 0x17 = .ok (.uopKexp 1) ∧
  decodeUop 0x05 = .ok .uopMc ∧ decodeUop 0x09 = .ok .uopOutst ∧ decodeUop 0x0A = .ok .uopLdkey ∧
  decodeUop 0x15 = .error .uopFieldNotZero

/-- Decoding the encoding of a well-formed instruction gives it back, whatever follows it on the command
stream (30_encoding.md R48 to R58). -/
def Obligations.DecodeOfEncodeIsTheInstruction : Prop :=
  ∀ i : Instr, i.wf = true →
    match encode i with
    | .command ws => ∀ rest, decodeCommand (ws ++ rest) = .ok (i, rest)
    | .uop u => decodeUop u = .ok i

/-- What a decoder reads encodes to just the words, or the byte, that it read; and what it reads from the
command stream is well-formed (30_encoding.md R48 to R58). -/
def Obligations.EncodeOfDecodeIsTheWords : Prop :=
  (∀ ws i rest, decodeCommand ws = .ok (i, rest) →
    i.wf = true ∧ ∃ cws, encode i = .command cws ∧ ws = cws ++ rest) ∧
  ∀ u i, decodeUop u = .ok i → encode i = .uop u

/-- R53: a command is its command word and exactly LEN operand words, whatever its OP and RSV. -/
def Obligations.CommandTakesOnePlusLenWords : Prop :=
  ∀ (cmd : StreamWord) (ws : List StreamWord),
    (cmd.toNat / 256 ≤ ws.length → ∃ i, decodeCommand (cmd :: ws) = .ok (i, ws.drop (cmd.toNat / 256)) ∧
      encode i = .command (cmd :: ws.take (cmd.toNat / 256))) ∧
    (ws.length < cmd.toNat / 256 → decodeCommand (cmd :: ws) = .error .operandsMissing)

/-- R58, R106: the µop bytes of the table with the R values given run in every state; a model refuses
any other µop byte. -/
def Obligations.ExactlyTheTablesUopsRun : Prop :=
  ∀ (u : Byte) (s : State),
    if (u.toNat % 16 = 0 ∧ u.toNat / 16 ≤ 10) ∨
        (u.toNat % 16 = 7 ∧ 1 ≤ u.toNat / 16 ∧ u.toNat / 16 ≤ 10) ∨
        (u.toNat % 16 ≤ 10 ∧ u.toNat / 16 = 0 ∧ u.toNat % 16 ≠ 7)
    then ∃ t, runUop u s = .next t
    else ∃ r, runUop u s = .refused r

/-! The step. -/

/-- A step of an idle core takes the words of the command at the front of the command stream and runs
that command (R55). -/
def Obligations.IdleStepRunsTheDecodedCommand : Prop :=
  ∀ (s : State) (i : Instr) (rest : List StreamWord), Idle s →
    decodeCommand s.cmdStream = .ok (i, rest) → step s = exec i { s with cmdStream := rest }

/-- A step of a running core runs the µop that the byte at `UPC` decodes to, and advances `UPC` by
exactly 1; with `UPC` at the schedule's length, or past it, the command ends (R27). That the machine can
be stepped one µop at a time, and that the end is a step of its own, is the MODEL'S CHOICE beside R7 and
R38 (DESIGN CHOICE, log entry 6); so are the free values and their counter that the end leaves in the
hidden working state (log entries 3, 4 and 9). -/
def Obligations.RunningStepRunsTheDecodedUop : Prop :=
  ∀ (s : State) (q : Sequencer), s.seq = some q →
    (∀ u i, q.sched[q.upc]? = some u → decodeUop u = .ok i →
      step s = andThen (exec i s) fun t => .next { t with seq := some { q with upc := q.upc + 1 } }) ∧
    (q.sched.length ≤ q.upc → step s = .next (endCommand q.cmd s))

/-- R114, R120: with no command word, or with operand words missing, the core makes no step. -/
def Obligations.StepWaitsForWords : Prop :=
  ∀ s : State, Idle s →
    (s.cmdStream = [] → step s = .fault .waitingForCommand) ∧
    ∀ cmd ws, s.cmdStream = cmd :: ws → ws.length < cmd.toNat / 256 →
      step s = .fault .waitingForOperands

/-- R123: a command whose operand words have all arrived completes, in one step; R38: that step takes
its `1 + LEN` words, leaves no command running, and emits its whole response, a status word first, after
the earlier responses. R123 has the proviso that the host keeps reading the response stream; dropping it,
so that the command completes in one step whatever stands unread there, is the MODEL'S CHOICE (log entry
11, after R120 and U9). -/
def Obligations.ArrivedCommandCompletesAtomically : Prop :=
  ∀ (s : State) (cmd : StreamWord) (ws : List StreamWord), Idle s → s.cmdStream = cmd :: ws →
    cmd.toNat / 256 ≤ ws.length →
    ∃ t code data, step s = .next t ∧ Idle t ∧ t.cmdStream = ws.drop (cmd.toNat / 256) ∧
      t.rspStream = s.rspStream ++ statusWord code t.keyValid :: data ∧
      (data = [] ∨ (code = .ok ∧ data.length = 16 ∧ ∀ w ∈ data, w.toNat ≤ 0xFF))

/-- 20_memory.md R33, R42, 70_reset_and_hazards.md R120: words the host sends later change nothing of a
step, and neither does the host's reading of earlier response words. -/
def Obligations.HostPortsCommuteWithSteps : Prop :=
  ∀ s t : State, step s = .next t →
    (∀ ws, step (hostSend ws s) = .next (hostSend ws t)) ∧
    ∀ w s', hostRead s = some (w, s') → ∃ t', step s' = .next t' ∧ hostRead t = some (w, t')

/-- The model's own interface (log entry 6): a step from `withFetchWord` is one run of the instruction that
`decodeTableWord` reads from the same bits, a command (whose words the step takes) or a µop. -/
def Obligations.FetchWordRunsTheTableInstruction : Prop :=
  ∀ (s : State) (nbits w : Nat) (i : Instr), decodeTableWord nbits w = some i →
    (8 < nbits → step (s.withFetchWord nbits w) = exec i { s with seq := none }) ∧
    (nbits ≤ 8 → step (s.withFetchWord nbits w) =
      andThen (exec i (s.withFetchWord nbits w)) fun t => .next (advanceUpc t))

/-! Reset and boot. -/

/-- R31, R115, R116: after reset, from whatever state, `KEY_VALID` is 0, no command runs, and both streams
are empty. (Nothing is said of `RK`, `ST`, `TW`, which are unspecified.) -/
def Obligations.ResetLeavesNoKeyAndEmptyStreams : Prop :=
  IsReset State.reset ∧ ∀ s : State, IsReset (hostReset s)

/-- R118: an ENCRYPT or DECRYPT sent first after reset is answered with KeyNotLoaded (`0x0004`) and
changes nothing, whatever `RK`, `ST` and `TW` hold; one LOADKEY of legal bytes is answered `0x0100`. -/
def Obligations.FirstCommandAfterReset : Prop :=
  ∀ (s : State) (es : List StreamWord), IsReset s → LegalOperands es →
    step (hostSend (0x1001 :: es) s) = .next { s with rspStream := [0x0004] } ∧
    step (hostSend (0x1002 :: es) s) = .next { s with rspStream := [0x0004] } ∧
    ∃ t, step (hostSend (0x1000 :: es) s) = .next t ∧ t.keyValid = true ∧ t.rspStream = [0x0100] ∧
      t.cmdStream = [] ∧ Idle t

/-- R117, U1: what `RK`, `ST` and `TW` hold after reset is unobservable: from any two reset states and
the same command stream, any number of steps gives outcomes that no host can tell apart. -/
def Obligations.ValuesAfterResetAreUnobservable : Prop :=
  ∀ (s t : State) (ws : List StreamWord) (n : Nat), IsReset s → IsReset t →
    SameOutcome (Host.Core.run Sys2Proof.core n (hostSend ws s))
      (Host.Core.run Sys2Proof.core n (hostSend ws t))

/-! The host's commands. -/

/-- R98: LOADKEY: its encoding, what it does with 16 legal bytes, and its three errors, on each of which
`RK` and `KEY_VALID` keep their values. The first fact about `RK` is that it holds the expansion of the
operand bytes. The free values that the hidden working state holds after a command
that has run, and their counter, are the MODEL'S CHOICE (`releaseWorking`: log entries 3, 4 and 9), which
R28 and R29 leave unspecified; the rest is the rule's. -/
def Obligations.LoadkeyExpandsTheKeyOrAnswersTheError : Prop :=
  ∀ (es : List StreamWord) (s : State),
    (LegalOperands es → encode (.loadkey es) = .command (0x1000 :: es)) ∧
    (LegalOperands es → exec (.loadkey es) s = .next (releaseWorking
      { s with
        keyValid := true
        rk := expandKey (operandBytes es)
        rspStream := s.rspStream ++ [0x0100] })) ∧
    (es.length ≠ 16 → exec (.loadkey es) s =
      .next { s with rspStream := s.rspStream ++ [BitVec.ofNat 16 (256 * s.keyValid.toNat + 1)] }) ∧
    (es.length = 16 → (∃ e ∈ es, 0xFF < e.toNat) → exec (.loadkey es) s =
      .next { s with rspStream := s.rspStream ++ [BitVec.ofNat 16 (256 * s.keyValid.toNat + 3)] }) ∧
    ∀ rsv, exec (.illegalRsv rsv 0 es) s =
      .next { s with rspStream := s.rspStream ++ [BitVec.ofNat 16 (256 * s.keyValid.toNat + 5)] }

/-- R99: ENCRYPT: its encoding, its answer, and its errors. Its schedule's result is
`encrypt(RK, byte[0..15])` of R93. The free values that the hidden working state holds after a command
that has run, and their counter, are the MODEL'S CHOICE (`releaseWorking`: log entries 3, 4 and 9), which
R28 and R29 leave unspecified; the rest is the rule's. -/
def Obligations.EncryptAnswersTheCiphertextOrTheError : Prop :=
  ∀ (es : List StreamWord) (s : State),
    (LegalOperands es → encode (.encrypt es) = .command (0x1001 :: es)) ∧
    (LegalOperands es → s.keyValid = true → exec (.encrypt es) s = .next (releaseWorking
      { s with rspStream :=
          s.rspStream ++ 0x0100 :: dataWords (encryptBlock s.rk (operandBytes es)) })) ∧
    (es.length ≠ 16 → exec (.encrypt es) s =
      .next { s with rspStream := s.rspStream ++ [BitVec.ofNat 16 (256 * s.keyValid.toNat + 2)] }) ∧
    (es.length = 16 → (∃ e ∈ es, 0xFF < e.toNat) → exec (.encrypt es) s =
      .next { s with rspStream := s.rspStream ++ [BitVec.ofNat 16 (256 * s.keyValid.toNat + 3)] }) ∧
    (LegalOperands es → s.keyValid = false → exec (.encrypt es) s =
      .next { s with rspStream := s.rspStream ++ [0x0004] }) ∧
    ∀ rsv, exec (.illegalRsv rsv 1 es) s =
      .next { s with rspStream := s.rspStream ++ [BitVec.ofNat 16 (256 * s.keyValid.toNat + 5)] }

/-- R100: DECRYPT: its encoding, its answer, and its errors. Its schedule's result is
`decrypt(RK, byte[0..15])` of R95. The free values that the hidden working state holds after a command
that has run, and their counter, are the MODEL'S CHOICE (`releaseWorking`: log entries 3, 4 and 9), which
R28 and R29 leave unspecified; the rest is the rule's. -/
def Obligations.DecryptAnswersThePlaintextOrTheError : Prop :=
  ∀ (es : List StreamWord) (s : State),
    (LegalOperands es → encode (.decrypt es) = .command (0x1002 :: es)) ∧
    (LegalOperands es → s.keyValid = true → exec (.decrypt es) s = .next (releaseWorking
      { s with rspStream :=
          s.rspStream ++ 0x0100 :: dataWords (decryptBlock s.rk (operandBytes es)) })) ∧
    (es.length ≠ 16 → exec (.decrypt es) s =
      .next { s with rspStream := s.rspStream ++ [BitVec.ofNat 16 (256 * s.keyValid.toNat + 2)] }) ∧
    (es.length = 16 → (∃ e ∈ es, 0xFF < e.toNat) → exec (.decrypt es) s =
      .next { s with rspStream := s.rspStream ++ [BitVec.ofNat 16 (256 * s.keyValid.toNat + 3)] }) ∧
    (LegalOperands es → s.keyValid = false → exec (.decrypt es) s =
      .next { s with rspStream := s.rspStream ++ [0x0004] }) ∧
    ∀ rsv, exec (.illegalRsv rsv 2 es) s =
      .next { s with rspStream := s.rspStream ++ [BitVec.ofNat 16 (256 * s.keyValid.toNat + 5)] }

/-- R101: every command word with OP = 3 or RSV ≠ 0 is answered with IllegalCommand, and nothing else
changes, in the instructions and in the step that takes the words. -/
def Obligations.IllegalWordsAreAnsweredAndIgnored : Prop :=
  (∀ rsv es (s : State), exec (.illegalOp3 rsv es) s =
    .next { s with rspStream := s.rspStream ++ [BitVec.ofNat 16 (256 * s.keyValid.toNat + 5)] }) ∧
  (∀ rsv op es (s : State), exec (.illegalRsv rsv op es) s =
    .next { s with rspStream := s.rspStream ++ [BitVec.ofNat 16 (256 * s.keyValid.toNat + 5)] }) ∧
  ∀ (s : State) (cmd : StreamWord) (ws : List StreamWord), Idle s → s.cmdStream = cmd :: ws →
    cmd.toNat / 256 ≤ ws.length → (cmd.toNat % 4 = 3 ∨ cmd.toNat / 4 % 64 ≠ 0) →
    step s = .next { s with
      cmdStream := ws.drop (cmd.toNat / 256)
      rspStream := s.rspStream ++ [BitVec.ofNat 16 (256 * s.keyValid.toNat + 5)] }

/-- R103: the checks in order; the first that fails gives the command's only code. -/
def Obligations.FirstFailingCheckGivesTheCode : Prop :=
  ∀ (op : BitVec 2) (rsv : BitVec 6) (es : List StreamWord) (kv : Bool),
    (check op rsv es kv = .illegalCommand ↔ op = 3 ∨ rsv ≠ 0) ∧
    (check op rsv es kv = .invalidKeyLength ↔ rsv = 0 ∧ op = 0 ∧ es.length ≠ 16) ∧
    (check op rsv es kv = .invalidBlockLength ↔ rsv = 0 ∧ (op = 1 ∨ op = 2) ∧ es.length ≠ 16) ∧
    (check op rsv es kv = .invalidByteValue ↔
      rsv = 0 ∧ op ≠ 3 ∧ es.length = 16 ∧ ∃ e ∈ es, 0xFF < e.toNat) ∧
    (check op rsv es kv = .keyNotLoaded ↔
      rsv = 0 ∧ (op = 1 ∨ op = 2) ∧ LegalOperands es ∧ kv = false) ∧
    (check op rsv es kv = .ok ↔
      rsv = 0 ∧ op ≠ 3 ∧ LegalOperands es ∧ (op = 0 ∨ kv = true))

/-- R104: a command whose `check` returns a non-zero code has taken its words, changes no persistent
state, runs no µop, and emits exactly one response word. -/
def Obligations.FailedCommandOnlyAnswers : Prop :=
  ∀ (s : State) (cmd : StreamWord) (ws : List StreamWord), Idle s → s.cmdStream = cmd :: ws →
    cmd.toNat / 256 ≤ ws.length →
    check (cmdOp cmd) (cmdRsv cmd) (ws.take (cmd.toNat / 256)) s.keyValid ≠ .ok →
    step s = .next { s with
      cmdStream := ws.drop (cmd.toNat / 256)
      rspStream := s.rspStream ++ [BitVec.ofNat 16 (256 * s.keyValid.toNat +
        (codeNumber (check (cmdOp cmd) (cmdRsv cmd) (ws.take (cmd.toNat / 256)) s.keyValid)).toNat)] }

/-- R23, R102: the fields of a status word and the numbers of the codes; 6 and 7 are never produced. -/
def Obligations.StatusWordFieldsArePlaced : Prop :=
  ∀ (code : StatusCode) (kv : Bool),
    (statusWord code kv).toNat = 256 * kv.toNat + (codeNumber code).toNat ∧
    (codeNumber code).toNat ≤ 5 ∧
    (codeNumber code).toNat =
      match code with
      | .ok => 0
      | .invalidKeyLength => 1
      | .invalidBlockLength => 2
      | .invalidByteValue => 3
      | .keyNotLoaded => 4
      | .illegalCommand => 5

/-- U4, U5: a host reads back the code and KV of every status word, and takes no other word for one. -/
def Obligations.HostReadsExactlyTheStatusWords : Prop :=
  ∀ (w : StreamWord) (code : StatusCode) (kv : Bool),
    readStatus w = some (code, kv) ↔ w = statusWord code kv

/-! What commands leave unchanged, and what carries from one to the next. -/

/-- The frame of the commands: none touches the words that follow it on the command stream or the
responses before it; only a LOADKEY of legal operands changes `RK` or `KEY_VALID`; a command of illegal
operands, or an illegal word, changes nothing but the response stream. -/
def Obligations.CommandFrame : Prop :=
  ∀ (es : List StreamWord) (s t : State),
    (exec (.loadkey es) s = .next t →
      t.cmdStream = s.cmdStream ∧ s.rspStream <+: t.rspStream ∧
      (¬ LegalOperands es → t = { s with rspStream := t.rspStream })) ∧
    (∀ i, i = .encrypt es ∨ i = .decrypt es → exec i s = .next t →
      t.cmdStream = s.cmdStream ∧ s.rspStream <+: t.rspStream ∧ t.rk = s.rk ∧
      t.keyValid = s.keyValid ∧
      (¬ LegalOperands es ∨ s.keyValid = false → t = { s with rspStream := t.rspStream })) ∧
    ∀ rsv op i, i = .illegalOp3 rsv es ∨ i = .illegalRsv rsv op es → exec i s = .next t →
      s.rspStream <+: t.rspStream ∧ t = { s with rspStream := t.rspStream }

/-- R20: `RK` is written only by a successful LOADKEY, which writes all 11 round keys together with
`KEY_VALID <- 1`; a step of an idle core that changes `RK` or `KEY_VALID` is one. -/
def Obligations.OnlySuccessfulLoadkeyWritesKeys : Prop :=
  ∀ s t : State, Idle s → step s = .next t → (t.rk ≠ s.rk ∨ t.keyValid ≠ s.keyValid) →
    ∃ es rest, decodeCommand s.cmdStream = .ok (.loadkey es, rest) ∧ LegalOperands es ∧
      t.rk = expandKey (operandBytes es) ∧ t.keyValid = true ∧ t.rspStream = s.rspStream ++ [0x0100]

/-- R17: "No command clears it": no step, of an idle or a running core, clears `KEY_VALID`. -/
def Obligations.NoStepClearsKeyValid : Prop :=
  ∀ s t : State, step s = .next t → s.keyValid = true → t.keyValid = true

/-- R39: ENCRYPT and DECRYPT change no persistent state, and the same command issued twice gives the same
response twice, whether it succeeds or fails. -/
def Obligations.RepeatedCommandRepeatsItsResponse : Prop :=
  ∀ (es : List StreamWord) (s : State) (i : Instr), i = .encrypt es ∨ i = .decrypt es →
    ∃ resp t u, exec i s = .next t ∧ exec i t = .next u ∧
      t.rspStream = s.rspStream ++ resp ∧ u.rspStream = t.rspStream ++ resp ∧
      t.rk = s.rk ∧ t.keyValid = s.keyValid

/-- R91: the round keys after a LOADKEY are a function of the key alone, whatever the states before, and
round key 0 is the key verbatim. -/
def Obligations.LoadedKeysDependOnTheKeyAlone : Prop :=
  ∀ (es : List StreamWord) (s t : State), LegalOperands es →
    ∃ s' t', exec (.loadkey es) s = .next s' ∧ exec (.loadkey es) t = .next t' ∧ s'.rk = t'.rk ∧
      ∀ (j : Nat) (hj : j < 16) (e : StreamWord), es[j]? = some e → (s'.rk[0][j]).toNat = e.toNat

/-- R30: no hidden state carries information from one command to the next: from two idle states that no
host can tell apart, a step gives outcomes that no host can tell apart. -/
def Obligations.HiddenStateCarriesNothing : Prop :=
  ∀ s t : State, SameVisible s t → SameOutcome (step s) (step t)

/-- R17, R18, R20: the invariant of the key store holds after every step of every state that meets it, in
the middle of a command too (that there are states in the middle of a command is the model's choice, log
entry 6). -/
def Obligations.StepKeepsTheKeyStore : Prop :=
  ∀ s t : State, KeysInv s → step s = .next t → KeysInv t

/-- The invariant of the key store holds after reset, and when a command whose checks have passed
begins (a state in the middle of a command is the model's choice, log entry 6). -/
def Obligations.KeyStoreHoldsAtResetAndBegin : Prop :=
  KeysInv State.reset ∧ (∀ s, KeysInv (hostReset s)) ∧
  ∀ cmd bytes s, Idle s → KeysInv s → (cmd = .loadkey ∨ s.keyValid = true) →
    KeysInv (beginCommand cmd (schedule cmd) bytes s)

/-- R7, R27: a command's atomic step is the run of its schedule one µop a step: after `k` steps `UPC` is
`k`, and one step after the schedule's length the state is the one the command's own step gives. The
states in the middle of a command, and the separate step that ends it, are the MODEL'S CHOICE (DESIGN
CHOICE, log entry 6): R38 lets no observer see them. -/
def Obligations.AtomicCommandIsItsUopRun : Prop :=
  ∀ (cmd : Cmd) (es : List StreamWord) (s : State), LegalOperands es →
    (cmd = .loadkey ∨ s.keyValid = true) →
    (∀ k, k ≤ (schedule cmd).length → ∃ t : State,
      Host.Core.run Sys2Proof.core k (beginCommand cmd (schedule cmd) (operandBytes es) s) = .next t ∧
      t.seq = some { cmd := cmd, sched := schedule cmd, upc := k }) ∧
    Host.Core.run Sys2Proof.core ((schedule cmd).length + 1)
        (beginCommand cmd (schedule cmd) (operandBytes es) s) =
      exec (match cmd with
        | .loadkey => .loadkey es
        | .encrypt => .encrypt es
        | .decrypt => .decrypt es) s

/-- R90, R94, R96: the µop at each `UPC` of each schedule, by the tables' formulas; R83: MixColumns and
InverseMixColumns stand in their schedules exactly nine times. -/
def Obligations.SchedulesFollowTheTables : Prop :=
  loadkeySchedule.length = 11 ∧ encryptSchedule.length = 42 ∧ decryptSchedule.length = 42 ∧
  loadkeySchedule[0]? = some 0x0A ∧
  (∀ r : Nat, 1 ≤ r → r ≤ 10 → loadkeySchedule[r]? = some (uopByte (BitVec.ofNat 4 r) 0x7)) ∧
  encryptSchedule[0]? = some 0x08 ∧ encryptSchedule[1]? = some (uopByte 0 0x0) ∧
  (∀ r : Nat, 1 ≤ r → r ≤ 9 →
    encryptSchedule[2 + 4 * (r - 1)]? = some 0x01 ∧ encryptSchedule[3 + 4 * (r - 1)]? = some 0x03 ∧
    encryptSchedule[4 + 4 * (r - 1)]? = some 0x05 ∧
    encryptSchedule[5 + 4 * (r - 1)]? = some (uopByte (BitVec.ofNat 4 r) 0x0)) ∧
  encryptSchedule[38]? = some 0x01 ∧ encryptSchedule[39]? = some 0x03 ∧
  encryptSchedule[40]? = some 0xA0 ∧ encryptSchedule[41]? = some 0x09 ∧
  decryptSchedule[0]? = some 0x08 ∧ decryptSchedule[1]? = some 0xA0 ∧
  decryptSchedule[2]? = some 0x04 ∧ decryptSchedule[3]? = some 0x02 ∧
  (∀ r : Nat, 1 ≤ r → r ≤ 9 →
    decryptSchedule[4 + 4 * (9 - r)]? = some (uopByte (BitVec.ofNat 4 r) 0x0) ∧
    decryptSchedule[5 + 4 * (9 - r)]? = some 0x06 ∧ decryptSchedule[6 + 4 * (9 - r)]? = some 0x04 ∧
    decryptSchedule[7 + 4 * (9 - r)]? = some 0x02) ∧
  decryptSchedule[40]? = some 0x00 ∧ decryptSchedule[41]? = some 0x09 ∧
  encryptSchedule.count 0x05 = 9 ∧ decryptSchedule.count 0x06 = 9

/-! The cipher. -/

/-- R97: decryption undoes encryption under every round-key store, and encryption undoes decryption. -/
def Obligations.DecryptAndEncryptAreInverse : Prop :=
  ∀ (rk : RoundKeys) (b : Block),
    decryptBlock rk (encryptBlock rk b) = b ∧ encryptBlock rk (decryptBlock rk b) = b

/-- R42, R97, R98 to R100 on the machine: LOADKEY of a key, ENCRYPT of a block and DECRYPT of what it
answered, sent on one stream to an idle core, are answered in order, and the last answer is the block. -/
def Obligations.MachineRoundTrip : Prop :=
  ∀ (key block : Block) (s : State), Idle s →
    ∃ t : State, Host.Core.run Sys2Proof.core 3 { s with cmdStream :=
        (0x1000 :: dataWords key) ++ (0x1001 :: dataWords block) ++
          (0x1002 :: dataWords (encryptBlock (expandKey key) block)) } = .next t ∧
      t.rspStream = s.rspStream ++ [0x0100] ++
        (0x0100 :: dataWords (encryptBlock (expandKey key) block)) ++ (0x0100 :: dataWords block) ∧
      t.rk = expandKey key ∧ t.keyValid = true ∧ t.cmdStream = [] ∧ Idle t

/-! The µops. -/

/-- R75: AddRoundKey: its µop byte, its effect on every byte; it is its own inverse, an all-zero round key
changes nothing, and `ST = RK[k]` gives the all-zero State. Another R is refused (R58, U7), under a name
that is the model's (log entry 12). -/
def Obligations.ArkAddsTheRoundKey : Prop :=
  ∀ (r : BitVec 4) (s : State),
    encode (.uopArk r) = .uop (BitVec.ofNat 8 (16 * r.toNat)) ∧
    (∀ h : r.toNat ≤ 10, ∃ t, exec (.uopArk r) s = .next t ∧ t = { s with st := t.st } ∧
      (∀ (i : Nat) (hi : i < 16), t.st[i] = s.st[i] ^^^ (s.rk[r.toNat]'(by omega))[i]) ∧
      exec (.uopArk r) t = .next s ∧
      (s.rk[r.toNat]'(by omega) = Vector.replicate 16 0 → t = s) ∧
      (s.st = s.rk[r.toNat]'(by omega) → t.st = Vector.replicate 16 0)) ∧
    (10 < r.toNat → exec (.uopArk r) s = .refused .uopIndexOutOfRange)

/-- R76, R77: SubBytes and InverseSubBytes: their µop bytes, their effect on every byte, each undoes the
other, and their corner cases. -/
def Obligations.SubAndIsubSubstituteEachByte : Prop :=
  encode .uopSub = .uop 0x01 ∧ encode .uopIsub = .uop 0x02 ∧
  (∀ s : State, ∃ t, exec .uopSub s = .next t ∧ t = { s with st := t.st } ∧
    (∀ (i : Nat) (hi : i < 16), t.st[i] = sbox s.st[i]) ∧ exec .uopIsub t = .next s) ∧
  (∀ s : State, ∃ t, exec .uopIsub s = .next t ∧ t = { s with st := t.st } ∧
    (∀ (i : Nat) (hi : i < 16), t.st[i] = invSbox s.st[i]) ∧ exec .uopSub t = .next s) ∧
  subBytes (Vector.replicate 16 0x00) = Vector.replicate 16 0x63 ∧
  subBytes (Vector.replicate 16 0xFF) = Vector.replicate 16 0x16 ∧
  invSubBytes (Vector.replicate 16 0x63) = Vector.replicate 16 0x00 ∧
  invSubBytes (Vector.replicate 16 0x00) = Vector.replicate 16 0x52

/-- R78, R79: ShiftRows and InverseShiftRows: their µop bytes, row `r` rotated left or right by `r`
positions, the byte permutations, each undoes the other; a State whose every row holds one value is
unchanged, four ShiftRows are the identity, and two swap columns 0 with 2 and 1 with 3 in rows 1 and 3
only. -/
def Obligations.SrAndIsrRotateTheRows : Prop :=
  encode .uopSr = .uop 0x03 ∧ encode .uopIsr = .uop 0x04 ∧
  ∀ s : State, ∃ t u, exec .uopSr s = .next t ∧ t = { s with st := t.st } ∧
    exec .uopIsr s = .next u ∧ u = { s with st := u.st } ∧
    exec .uopIsr t = .next s ∧ exec .uopSr u = .next s ∧
    (∀ (r c : Nat) (hr : r < 4) (hc : c < 4),
      t.st[r + 4 * c] = s.st[r + 4 * ((c + r) % 4)] ∧
      u.st[r + 4 * c] = s.st[r + 4 * ((c + 4 - r) % 4)] ∧
      (shiftRows t.st)[r + 4 * c] =
        if r % 2 = 1 then s.st[r + 4 * ((c + 2) % 4)] else s.st[r + 4 * c]) ∧
    t.st = #v[s.st[0], s.st[5], s.st[10], s.st[15], s.st[4], s.st[9], s.st[14], s.st[3],
      s.st[8], s.st[13], s.st[2], s.st[7], s.st[12], s.st[1], s.st[6], s.st[11]] ∧
    u.st = #v[s.st[0], s.st[13], s.st[10], s.st[7], s.st[4], s.st[1], s.st[14], s.st[11],
      s.st[8], s.st[5], s.st[2], s.st[15], s.st[12], s.st[9], s.st[6], s.st[3]] ∧
    shiftRows (shiftRows (shiftRows t.st)) = s.st ∧
    ((∀ (r c : Nat) (hr : r < 4) (hc : c < 4), s.st[r + 4 * c] = s.st[r]) → t = s ∧ u = s)

/-- R80, R81: MixColumns and InverseMixColumns: their µop bytes; each multiplies each column by its matrix
over GF(2^8); a column of four equal bytes is unchanged, and the column `80 00 00 00` shows the
reduction. -/
def Obligations.McAndImcMultiplyByTheMatrix : Prop :=
  encode .uopMc = .uop 0x05 ∧ encode .uopImc = .uop 0x06 ∧
  (∀ s : State, ∃ t, exec .uopMc s = .next t ∧ t = { s with st := t.st } ∧
    ∀ (r c : Nat) (hr : r < 4) (hc : c < 4), t.st[4 * c + r] =
      gmul mixMatrix[r][0] s.st[4 * c] ^^^ gmul mixMatrix[r][1] s.st[4 * c + 1] ^^^
        gmul mixMatrix[r][2] s.st[4 * c + 2] ^^^ gmul mixMatrix[r][3] s.st[4 * c + 3]) ∧
  (∀ s : State, ∃ t, exec .uopImc s = .next t ∧ t = { s with st := t.st } ∧
    ∀ (r c : Nat) (hr : r < 4) (hc : c < 4), t.st[4 * c + r] =
      gmul invMixMatrix[r][0] s.st[4 * c] ^^^ gmul invMixMatrix[r][1] s.st[4 * c + 1] ^^^
        gmul invMixMatrix[r][2] s.st[4 * c + 2] ^^^ gmul invMixMatrix[r][3] s.st[4 * c + 3]) ∧
  (∀ (b : Byte), mixColumn #v[b, b, b, b] = #v[b, b, b, b] ∧
    invMixColumn #v[b, b, b, b] = #v[b, b, b, b]) ∧
  mixColumn #v[0x80, 0, 0, 0] = #v[0x1b, 0x80, 0x80, 0x9b] ∧
  invMixColumn #v[0x80, 0, 0, 0] = #v[0x41, 0xec, 0xda, 0xf7]

/-- R82: MixColumns and InverseMixColumns are exact inverses, and their matrices multiply to the identity
over GF(2^8). -/
def Obligations.MixColumnsAndInverseAreInverse : Prop :=
  (∀ s : Block, invMixColumns (mixColumns s) = s ∧ mixColumns (invMixColumns s) = s) ∧
  ∀ (i j : Nat) (hi : i < 4) (hj : j < 4),
    gmul invMixMatrix[i][0] mixMatrix[0][j] ^^^ gmul invMixMatrix[i][1] mixMatrix[1][j] ^^^
      gmul invMixMatrix[i][2] mixMatrix[2][j] ^^^ gmul invMixMatrix[i][3] mixMatrix[3][j] =
    if i = j then 1 else 0

/-- R87, with R84 to R86: KEXP r, whose µop byte is `(r << 4) | 0x7`, reads only `RK[r-1]` and writes only
`RK[r]` and `TW`: `TW` is the rotated and substituted last word of `P = RK[r-1]` with the round constant
in byte 0, and word `j` of the new round key is the XOR of `TW` with words 0..j of `P`. That `TW` still
holds this value once the round is over is the MODEL'S CHOICE (log entry 15): R29 calls it unspecified
there. That R = 0 and R above 10 are refused rests on R58 and U7, and the refusal's name on log entry
12. -/
def Obligations.KexpComputesTheNextRoundKey : Prop :=
  ∀ (r : BitVec 4) (s : State),
    encode (.uopKexp r) = .uop (BitVec.ofNat 8 (16 * r.toNat + 7)) ∧
    (∀ h : 1 ≤ r.toNat ∧ r.toNat ≤ 10,
      ∃ t p n, exec (.uopKexp r) s = .next t ∧ t = { s with rk := t.rk, tw := t.tw } ∧
        s.rk[r.toNat - 1]? = some p ∧ t.rk[r.toNat]? = some n ∧
        (∀ j : Nat, j ≠ r.toNat → t.rk[j]? = s.rk[j]?) ∧
        t.tw = #v[sbox p[13] ^^^ rcon ⟨r.toNat - 1, by omega⟩, sbox p[14], sbox p[15], sbox p[12]] ∧
        ∀ (b : Nat) (hb : b < 4), n[b] = p[b] ^^^ t.tw[b] ∧ n[4 + b] = p[4 + b] ^^^ n[b] ∧
          n[8 + b] = p[8 + b] ^^^ n[4 + b] ∧ n[12 + b] = p[12 + b] ^^^ n[8 + b] ∧
          n[12 + b] = t.tw[b] ^^^ p[b] ^^^ p[4 + b] ^^^ p[8 + b] ^^^ p[12 + b]) ∧
    ((r.toNat = 0 ∨ 10 < r.toNat) → exec (.uopKexp r) s = .refused .uopIndexOutOfRange)

/-- R92: the three data-movement µops; and, in every state that meets the invariant of the key store,
`KEY_VALID` is 1 whenever OUTST is the µop at `UPC`. -/
def Obligations.DataMovementUops : Prop :=
  encode .uopLdst = .uop 0x08 ∧ encode .uopOutst = .uop 0x09 ∧ encode .uopLdkey = .uop 0x0A ∧
  (∀ s : State, ∃ t, exec .uopLdst s = .next t ∧ t = { s with st := t.st } ∧
    ∀ (j : Nat) (hj : j < 16), t.st[j] = s.opnd[j]) ∧
  (∀ s : State, ∃ t, exec .uopLdkey s = .next t ∧ t = { s with rk := t.rk } ∧
    (∀ (j : Nat) (hj : j < 16), t.rk[0][j] = s.opnd[j]) ∧
    ∀ (k : Nat), k ≠ 0 → t.rk[k]? = s.rk[k]?) ∧
  (∀ s : State, ∃ t data, exec .uopOutst s = .next t ∧ t = { s with rspStream := t.rspStream } ∧
    t.rspStream = s.rspStream ++ 0x0100 :: data ∧ data.length = 16 ∧
    ∀ (j : Nat) (hj : j < 16) (w : StreamWord), data[j]? = some w → w.toNat = (s.st[j]).toNat) ∧
  ∀ (s : State) (q : Sequencer), KeysInv s → s.seq = some q → q.sched[q.upc]? = some 0x09 →
    s.keyValid = true

/-- R58: "reserved, never in a schedule; a model refuses it". -/
def Obligations.ReservedUopIsRefused : Prop :=
  ∀ (r kind : BitVec 4) (s : State), exec (.uopReserved r kind) s = .refused .reservedUop

/-- The frame of the µops: the round µops and LDST write only `ST`, KEXP only `TW` and one round key,
LDKEY only round key 0, OUTST only appends to the response stream. -/
def Obligations.UopFrame : Prop :=
  ∀ (i : Instr) (s t : State), exec i s = .next t →
    ((∃ r, i = .uopArk r) ∨ i = .uopSub ∨ i = .uopIsub ∨ i = .uopSr ∨ i = .uopIsr ∨ i = .uopMc ∨
      i = .uopImc ∨ i = .uopLdst → t = { s with st := t.st }) ∧
    (∀ r, i = .uopKexp r → t = { s with rk := t.rk, tw := t.tw } ∧
      ∀ j : Nat, j ≠ r.toNat → t.rk[j]? = s.rk[j]?) ∧
    (i = .uopLdkey → t = { s with rk := t.rk } ∧ ∀ j : Nat, j ≠ 0 → t.rk[j]? = s.rk[j]?) ∧
    (i = .uopOutst → t = { s with rspStream := t.rspStream } ∧ s.rspStream <+: t.rspStream)

/-! The field and the tables. -/

/-- R61: `xtime` is doubling with reduction by 0x1B, and is 0 only for 0. -/
def Obligations.XtimeDoublesAndReduces : Prop :=
  ∀ b : Byte, (xtime b).toNat = (2 * b.toNat % 256) ^^^ (if 128 ≤ b.toNat then 0x1B else 0) ∧
    (xtime b = 0 → b = 0)

/-- R62: the double-and-add loop adds `xtime^i(a)` for each set bit `i` of `b`, and a longer loop gives
the same product (90_conflicts.md C3). -/
def Obligations.GmulAddsTheDoublings : Prop :=
  ∀ a b : Byte,
    gmul a b = (List.range 8).foldl (fun p i => if b.getLsbD i then p ^^^ xtime^[i] a else p) 0 ∧
    ∀ n : Nat, 8 ≤ n → gmulLoop n 0 a b = gmul a b

/-- R63: the laws of the field product. -/
def Obligations.GmulFieldLaws : Prop :=
  ∀ a b c : Byte, gmul a 1 = a ∧ gmul a 0 = 0 ∧ gmul a b = gmul b a ∧ gmul 2 a = xtime a ∧
    gmul 3 a = xtime a ^^^ a ∧ gmul a (b ^^^ c) = gmul a b ^^^ gmul a c ∧
    gmul a (gmul b c) = gmul (gmul a b) c ∧
    (a ≠ 0 → ∃ d, gmul a d = 1 ∧ ∀ e, gmul a e = 1 → e = d)

/-- R69: the two tables are mutual inverses. -/
def Obligations.SboxTablesAreInverse : Prop :=
  ∀ b : Byte, invSbox (sbox b) = b ∧ sbox (invSbox b) = b

/-- R70: the S-box table is the affine map of the field inverse (and of 0 for 0). -/
def Obligations.SboxIsTheAffineMapOfTheInverse : Prop :=
  sbox 0 = sboxAffine 0 ∧ ∀ b c : Byte, gmul b c = 1 → sbox b = sboxAffine c

/-- R71, R72, R86: the round constants start at 1 and double, the ninth the first reduced one; and the
round-constant step of round `i + 1` changes byte 0 alone. -/
def Obligations.RoundConstantsDouble : Prop :=
  rcon 0 = 0x01 ∧ (∀ (i : Nat) (h : i + 1 < 10), rcon ⟨i + 1, h⟩ = xtime (rcon ⟨i, by omega⟩)) ∧
  rcon 8 = 0x1B ∧ ∀ (i : Fin 10) (w : KeyWord), (rconStep i w)[0] = w[0] ^^^ rcon i ∧
    (rconStep i w)[1] = w[1] ∧ (rconStep i w)[2] = w[2] ∧ (rconStep i w)[3] = w[3]

/-- R89: the expansion over the 44 words of R19. -/
def Obligations.ExpansionFollowsTheWordRecurrence : Prop :=
  ∀ (key : Block) (n : Nat) (hn : n < 44),
    if h4 : n < 4 then keyWordAt (expandKey key) ⟨n, hn⟩ = column key ⟨n, h4⟩
    else if n % 4 = 0 then
      keyWordAt (expandKey key) ⟨n, hn⟩ = xorWord (keyWordAt (expandKey key) ⟨n - 4, by omega⟩)
        (rconStep ⟨n / 4 - 1, by omega⟩
          (subWord (rotWord (keyWordAt (expandKey key) ⟨n - 1, by omega⟩))))
    else
      keyWordAt (expandKey key) ⟨n, hn⟩ = xorWord (keyWordAt (expandKey key) ⟨n - 4, by omega⟩)
        (keyWordAt (expandKey key) ⟨n - 1, by omega⟩)

/-! The assembly syntax. -/

/-- R59: the line of every well-formed command assembles to the words of its encoding. -/
def Obligations.CommandLinesAssembleToTheirWords : Prop :=
  ∀ (i : Instr) (line : List Char), i.wf = true → lineOf i = some line →
    ∃ ws, encode i = .command ws ∧ asmLine line = some ws

/-- R60: `LOADKEY.H`, `ENCRYPT.H` and `DECRYPT.H` of a block's hex digits assemble to the well-formed
command word and the block's 16 operand words. -/
def Obligations.HexLinesAssembleToTheirWords : Prop :=
  ∀ b : Block, asmLine (hexLineOf .loadkey b) = some (0x1000 :: dataWords b) ∧
    asmLine (hexLineOf .encrypt b) = some (0x1001 :: dataWords b) ∧
    asmLine (hexLineOf .decrypt b) = some (0x1002 :: dataWords b)
end

