-- ==== Sys2Proof/Laws/Bytes.lean ====
section
/-! SUPPORT. What one byte of each block and word operation is. -/

namespace Sys2Proof.Machine

@[simp] theorem blockOf_getElem (f : Fin 16 → Byte) (i : Nat) (h : i < 16) :
    (blockOf f)[i] = f ⟨i, h⟩ := by
  interval_cases i <;> rfl

@[simp] theorem wordOf_getElem (f : Fin 4 → Byte) (i : Nat) (h : i < 4) :
    (wordOf f)[i] = f ⟨i, h⟩ := by
  interval_cases i <;> rfl

@[simp] theorem column_getElem (s : Block) (c : Fin 4) (t : Nat) (h : t < 4) :
    (column s c)[t] = s[4 * c.val + t] := by
  simp [column]

@[simp] theorem blockOfColumns_getElem (f : Fin 4 → KeyWord) (i : Nat) (h : i < 16) :
    (blockOfColumns f)[i] = (f ⟨i / 4, by omega⟩)[i % 4] := by
  simp [blockOfColumns]

@[simp] theorem xorBlock_getElem (a b : Block) (i : Nat) (h : i < 16) :
    (xorBlock a b)[i] = a[i] ^^^ b[i] := by
  simp [xorBlock]

@[simp] theorem xorWord_getElem (a b : KeyWord) (i : Nat) (h : i < 4) :
    (xorWord a b)[i] = a[i] ^^^ b[i] := by
  simp [xorWord]

@[simp] theorem addRoundKey_getElem (s k : Block) (i : Nat) (h : i < 16) :
    (addRoundKey s k)[i] = s[i] ^^^ k[i] := by
  simp [addRoundKey]

@[simp] theorem subBytes_getElem (s : Block) (i : Nat) (h : i < 16) :
    (subBytes s)[i] = sbox s[i] := by
  simp [subBytes]

@[simp] theorem invSubBytes_getElem (s : Block) (i : Nat) (h : i < 16) :
    (invSubBytes s)[i] = invSbox s[i] := by
  simp [invSubBytes]

@[simp] theorem shiftRows_getElem (s : Block) (i : Nat) (h : i < 16) :
    (shiftRows s)[i] = s[i % 4 + 4 * ((i / 4 + i % 4) % 4)] := by
  simp [shiftRows]

@[simp] theorem invShiftRows_getElem (s : Block) (i : Nat) (h : i < 16) :
    (invShiftRows s)[i] = s[i % 4 + 4 * ((i / 4 + 4 - i % 4) % 4)] := by
  simp [invShiftRows]

/-- Two blocks are equal when their columns are. -/
theorem block_eq_of_columns {a b : Block} (h : ∀ c : Fin 4, column a c = column b c) : a = b := by
  apply Vector.ext
  intro i hi
  have hc := congrArg (fun w : KeyWord => w[i % 4]'(by omega)) (h ⟨i / 4, by omega⟩)
  simpa [Nat.div_add_mod] using hc

/-- A column of a block made of columns is that column. -/
@[simp] theorem column_blockOfColumns (f : Fin 4 → KeyWord) (c : Fin 4) :
    column (blockOfColumns f) c = f c := by
  apply Vector.ext
  intro t ht
  have hq : (4 * c.val + t) / 4 = c.val := by omega
  have hr : (4 * c.val + t) % 4 = t := by omega
  simp [hq, hr]

/-- Entry `(r, c)` of a circulant matrix. -/
theorem circulant_getElem (first : KeyWord) (r c : Nat) (hr : r < 4) (hc : c < 4) :
    (circulant first)[r][c] = first[(c + 4 - r) % 4] := by
  interval_cases r <;> interval_cases c <;> rfl

end Sys2Proof.Machine
end

