-- ==== Sys2Proof/Laws/Decode.lean ====
section
/-! SUPPORT. What the stream decoder takes, and what the µop bytes decode to. -/

namespace Sys2Proof

/-- `takeWords` takes the first `n` words when they are there. -/
theorem takeWords_of_le : ∀ (n : Nat) (ws : List StreamWord), n ≤ ws.length →
    takeWords n ws = some (ws.take n, ws.drop n)
  | 0, ws, _ => by simp [takeWords]
  | n + 1, [], h => by simp at h
  | n + 1, w :: ws, h => by
    have ih := takeWords_of_le n ws (by simpa using h)
    simp [takeWords, ih]

/-- `takeWords` takes nothing when words are missing. -/
theorem takeWords_of_lt : ∀ (n : Nat) (ws : List StreamWord), ws.length < n → takeWords n ws = none
  | 0, ws, h => by simp at h
  | n + 1, [], _ => rfl
  | n + 1, w :: ws, h => by
    have ih := takeWords_of_lt n ws (by simpa using h)
    simp [takeWords, ih]

/-- The LEN field as a number. -/
theorem cmdLen_toNat (cmd : StreamWord) : (cmdLen cmd).toNat = cmd.toNat / 256 := by
  have := cmd.isLt
  simp only [cmdLen, BitVec.extractLsb'_toNat, Nat.shiftRight_eq_div_pow]
  omega

/-- A command whose operand words are there decodes, and what follows it stays. -/
theorem decodeCommand_cons_of_le (cmd : StreamWord) (ws : List StreamWord)
    (h : (cmdLen cmd).toNat ≤ ws.length) :
    decodeCommand (cmd :: ws) =
      .ok (commandOf cmd (ws.take (cmdLen cmd).toNat), ws.drop (cmdLen cmd).toNat) := by
  simp [decodeCommand, takeWords_of_le _ _ h]

/-- A command whose operand words are missing is rejected so. -/
theorem decodeCommand_cons_of_lt (cmd : StreamWord) (ws : List StreamWord)
    (h : ws.length < (cmdLen cmd).toNat) : decodeCommand (cmd :: ws) = .error .operandsMissing := by
  simp [decodeCommand, takeWords_of_lt _ _ h]

@[simp] theorem decodeCommand_nil : decodeCommand [] = .error .noCommandWord := rfl

/-- The command decoder rejects for missing words only. -/
theorem decodeCommand_error {ws : List StreamWord} {r : Reject} (h : decodeCommand ws = .error r) :
    r = .noCommandWord ∨ r = .operandsMissing := by
  cases ws with
  | nil => simp at h; exact .inl h.symm
  | cons cmd ws =>
    rcases Nat.lt_or_ge ws.length (cmdLen cmd).toNat with hl | hl
    · rw [decodeCommand_cons_of_lt _ _ hl] at h
      simp at h
      exact .inr h.symm
    · rw [decodeCommand_cons_of_le _ _ hl] at h
      simp at h

/-- The number of a concatenation: its high part times 2^m, plus its low part. -/
theorem append_toNat {n m : Nat} (a : BitVec n) (b : BitVec m) :
    (a ++ b).toNat = a.toNat * 2 ^ m + b.toNat := by
  rw [BitVec.toNat_append, ← Nat.shiftLeft_add_eq_or_of_lt b.isLt, Nat.shiftLeft_eq]

/-- The fields of a command word read back. -/
@[simp] theorem cmdLen_cmdWord (len : BitVec 8) (rsv : BitVec 6) (op : BitVec 2) :
    cmdLen (cmdWord len rsv op) = len := by
  apply BitVec.eq_of_toNat_eq
  have h1 := rsv.isLt
  have h2 := op.isLt
  rw [cmdLen_toNat]
  simp only [cmdWord, append_toNat]
  omega

@[simp] theorem cmdRsv_cmdWord (len : BitVec 8) (rsv : BitVec 6) (op : BitVec 2) :
    cmdRsv (cmdWord len rsv op) = rsv := by
  apply BitVec.eq_of_toNat_eq
  have h1 := rsv.isLt
  have h2 := op.isLt
  simp only [cmdRsv, cmdWord, BitVec.extractLsb'_toNat, append_toNat, Nat.shiftRight_eq_div_pow]
  omega

@[simp] theorem cmdOp_cmdWord (len : BitVec 8) (rsv : BitVec 6) (op : BitVec 2) :
    cmdOp (cmdWord len rsv op) = op := by
  apply BitVec.eq_of_toNat_eq
  have h2 := op.isLt
  simp only [cmdOp, cmdWord, BitVec.extractLsb'_toNat, append_toNat, Nat.shiftRight_zero]
  omega

@[simp] theorem uopKind_uopByte (r kind : BitVec 4) : uopKind (uopByte r kind) = kind := by
  revert r kind; decide

@[simp] theorem uopR_uopByte (r kind : BitVec 4) : uopR (uopByte r kind) = r := by
  revert r kind; decide

@[simp] theorem decodeUop_ark (r : BitVec 4) : decodeUop (uopByte r 0#4) = .ok (.uopArk r) := by
  simp [decodeUop]

@[simp] theorem decodeUop_kexp (r : BitVec 4) : decodeUop (uopByte r 7#4) = .ok (.uopKexp r) := by
  simp [decodeUop]

end Sys2Proof
end

