-- ==== Sys2Proof/Laws/State.lean ====
section
/-! SUPPORT. One lemma for each field of State after each shared operation, so that no proof unfolds a
record update. -/

namespace Sys2Proof.Machine

/-! After `emit`. -/

@[simp] theorem emit_keyValid (ws : List StreamWord) (s : State) :
    (emit ws s).keyValid = s.keyValid := rfl
@[simp] theorem emit_rk (ws : List StreamWord) (s : State) : (emit ws s).rk = s.rk := rfl
@[simp] theorem emit_st (ws : List StreamWord) (s : State) : (emit ws s).st = s.st := rfl
@[simp] theorem emit_tw (ws : List StreamWord) (s : State) : (emit ws s).tw = s.tw := rfl
@[simp] theorem emit_opnd (ws : List StreamWord) (s : State) : (emit ws s).opnd = s.opnd := rfl
@[simp] theorem emit_seq (ws : List StreamWord) (s : State) : (emit ws s).seq = s.seq := rfl
@[simp] theorem emit_cmdStream (ws : List StreamWord) (s : State) :
    (emit ws s).cmdStream = s.cmdStream := rfl
@[simp] theorem emit_rspStream (ws : List StreamWord) (s : State) :
    (emit ws s).rspStream = s.rspStream ++ ws := rfl
@[simp] theorem emit_free (ws : List StreamWord) (s : State) : (emit ws s).free = s.free := rfl

/-! After `failCommand`. -/

@[simp] theorem failCommand_keyValid (code : StatusCode) (s : State) :
    (failCommand code s).keyValid = s.keyValid := rfl
@[simp] theorem failCommand_rk (code : StatusCode) (s : State) :
    (failCommand code s).rk = s.rk := rfl
@[simp] theorem failCommand_st (code : StatusCode) (s : State) :
    (failCommand code s).st = s.st := rfl
@[simp] theorem failCommand_tw (code : StatusCode) (s : State) :
    (failCommand code s).tw = s.tw := rfl
@[simp] theorem failCommand_opnd (code : StatusCode) (s : State) :
    (failCommand code s).opnd = s.opnd := rfl
@[simp] theorem failCommand_seq (code : StatusCode) (s : State) :
    (failCommand code s).seq = s.seq := rfl
@[simp] theorem failCommand_cmdStream (code : StatusCode) (s : State) :
    (failCommand code s).cmdStream = s.cmdStream := rfl
@[simp] theorem failCommand_rspStream (code : StatusCode) (s : State) :
    (failCommand code s).rspStream = s.rspStream ++ [statusWord code s.keyValid] := rfl
@[simp] theorem failCommand_free (code : StatusCode) (s : State) :
    (failCommand code s).free = s.free := rfl

/-! After `beginCommand`. -/

@[simp] theorem beginCommand_keyValid (cmd : Cmd) (sched : List Byte) (bytes : Block) (s : State) :
    (beginCommand cmd sched bytes s).keyValid = s.keyValid := rfl
@[simp] theorem beginCommand_rk (cmd : Cmd) (sched : List Byte) (bytes : Block) (s : State) :
    (beginCommand cmd sched bytes s).rk = s.rk := rfl
@[simp] theorem beginCommand_st (cmd : Cmd) (sched : List Byte) (bytes : Block) (s : State) :
    (beginCommand cmd sched bytes s).st = s.st := rfl
@[simp] theorem beginCommand_tw (cmd : Cmd) (sched : List Byte) (bytes : Block) (s : State) :
    (beginCommand cmd sched bytes s).tw = s.tw := rfl
@[simp] theorem beginCommand_opnd (cmd : Cmd) (sched : List Byte) (bytes : Block) (s : State) :
    (beginCommand cmd sched bytes s).opnd = bytes := rfl
@[simp] theorem beginCommand_seq (cmd : Cmd) (sched : List Byte) (bytes : Block) (s : State) :
    (beginCommand cmd sched bytes s).seq = some { cmd := cmd, sched := sched, upc := 0 } := rfl
@[simp] theorem beginCommand_cmdStream (cmd : Cmd) (sched : List Byte) (bytes : Block) (s : State) :
    (beginCommand cmd sched bytes s).cmdStream = s.cmdStream := rfl
@[simp] theorem beginCommand_rspStream (cmd : Cmd) (sched : List Byte) (bytes : Block) (s : State) :
    (beginCommand cmd sched bytes s).rspStream = s.rspStream := rfl
@[simp] theorem beginCommand_free (cmd : Cmd) (sched : List Byte) (bytes : Block) (s : State) :
    (beginCommand cmd sched bytes s).free = s.free := rfl

/-! After `advanceUpc`. -/

@[simp] theorem advanceUpc_keyValid (s : State) : (advanceUpc s).keyValid = s.keyValid := rfl
@[simp] theorem advanceUpc_rk (s : State) : (advanceUpc s).rk = s.rk := rfl
@[simp] theorem advanceUpc_st (s : State) : (advanceUpc s).st = s.st := rfl
@[simp] theorem advanceUpc_tw (s : State) : (advanceUpc s).tw = s.tw := rfl
@[simp] theorem advanceUpc_opnd (s : State) : (advanceUpc s).opnd = s.opnd := rfl
@[simp] theorem advanceUpc_seq (s : State) :
    (advanceUpc s).seq = s.seq.map fun q => { q with upc := q.upc + 1 } := rfl
@[simp] theorem advanceUpc_cmdStream (s : State) : (advanceUpc s).cmdStream = s.cmdStream := rfl
@[simp] theorem advanceUpc_rspStream (s : State) : (advanceUpc s).rspStream = s.rspStream := rfl
@[simp] theorem advanceUpc_free (s : State) : (advanceUpc s).free = s.free := rfl

/-! After `releaseWorking`. -/

@[simp] theorem releaseWorking_keyValid (s : State) :
    (releaseWorking s).keyValid = s.keyValid := rfl
@[simp] theorem releaseWorking_rk (s : State) : (releaseWorking s).rk = s.rk := rfl
@[simp] theorem releaseWorking_st (s : State) :
    (releaseWorking s).st = Config.freeState s.free := rfl
@[simp] theorem releaseWorking_tw (s : State) :
    (releaseWorking s).tw = Config.freeTemp s.free := rfl
@[simp] theorem releaseWorking_opnd (s : State) :
    (releaseWorking s).opnd = Config.freeOperands s.free := rfl
@[simp] theorem releaseWorking_seq (s : State) : (releaseWorking s).seq = none := rfl
@[simp] theorem releaseWorking_cmdStream (s : State) :
    (releaseWorking s).cmdStream = s.cmdStream := rfl
@[simp] theorem releaseWorking_rspStream (s : State) :
    (releaseWorking s).rspStream = s.rspStream := rfl
@[simp] theorem releaseWorking_free (s : State) : (releaseWorking s).free = s.free + 1 := rfl

/-! After `hostSend`. -/

@[simp] theorem hostSend_keyValid (ws : List StreamWord) (s : State) :
    (hostSend ws s).keyValid = s.keyValid := rfl
@[simp] theorem hostSend_rk (ws : List StreamWord) (s : State) : (hostSend ws s).rk = s.rk := rfl
@[simp] theorem hostSend_st (ws : List StreamWord) (s : State) : (hostSend ws s).st = s.st := rfl
@[simp] theorem hostSend_tw (ws : List StreamWord) (s : State) : (hostSend ws s).tw = s.tw := rfl
@[simp] theorem hostSend_opnd (ws : List StreamWord) (s : State) :
    (hostSend ws s).opnd = s.opnd := rfl
@[simp] theorem hostSend_seq (ws : List StreamWord) (s : State) : (hostSend ws s).seq = s.seq := rfl
@[simp] theorem hostSend_cmdStream (ws : List StreamWord) (s : State) :
    (hostSend ws s).cmdStream = s.cmdStream ++ ws := rfl
@[simp] theorem hostSend_rspStream (ws : List StreamWord) (s : State) :
    (hostSend ws s).rspStream = s.rspStream := rfl
@[simp] theorem hostSend_free (ws : List StreamWord) (s : State) :
    (hostSend ws s).free = s.free := rfl

/-! After `hostReset`. -/

@[simp] theorem hostReset_keyValid (s : State) : (hostReset s).keyValid = false := rfl
@[simp] theorem hostReset_rk (s : State) : (hostReset s).rk = Config.freeRoundKeys s.free := rfl
@[simp] theorem hostReset_st (s : State) : (hostReset s).st = Config.freeState s.free := rfl
@[simp] theorem hostReset_tw (s : State) : (hostReset s).tw = Config.freeTemp s.free := rfl
@[simp] theorem hostReset_opnd (s : State) : (hostReset s).opnd = Config.freeOperands s.free := rfl
@[simp] theorem hostReset_seq (s : State) : (hostReset s).seq = none := rfl
@[simp] theorem hostReset_cmdStream (s : State) : (hostReset s).cmdStream = [] := rfl
@[simp] theorem hostReset_rspStream (s : State) : (hostReset s).rspStream = [] := rfl
@[simp] theorem hostReset_free (s : State) : (hostReset s).free = s.free + 1 := rfl

end Sys2Proof.Machine
end

