-- ==== Sys2Proof/Laws/Ops.lean ====
section
/-! SUPPORT. What each shared operation of the machine can do, said once. -/

namespace Sys2Proof.Machine

@[simp] theorem andThen_next (s : State) (k : State → Result) : andThen (.next s) k = k s := rfl

/-- If `andThen` answers next, its first part did. -/
theorem andThen_eq_next {o : Result} {k : State → Result} {t : State} (h : andThen o k = .next t) :
    ∃ s, o = .next s ∧ k s = .next t := by
  cases o with
  | next s => exact ⟨s, rfl, h⟩
  | fault r => simp [andThen] at h
  | refused r => simp [andThen] at h

@[simp] theorem runUops_nil (s : State) : runUops [] s = .next s := rfl

theorem runUops_cons (u : Byte) (us : List Byte) (s : State) :
    runUops (u :: us) s = andThen (runUop u s) (runUops us) := rfl

/-- Running one list of µops after another. -/
theorem runUops_append (us vs : List Byte) (s : State) :
    runUops (us ++ vs) s = andThen (runUops us s) (runUops vs) := by
  induction us generalizing s with
  | nil => rfl
  | cons u us ih =>
    simp only [List.cons_append, runUops_cons]
    cases runUop u s with
    | next t => simp [ih]
    | fault r => rfl
    | refused r => rfl

/-- A µop byte decodes to a µop, whose meaning in the sequencer is its meaning in `exec`. -/
theorem execUop_eq_exec {u : Byte} {i : Instr} (h : decodeUop u = .ok i) (s : State) :
    execUop i s = exec i s := by
  cases i with
  | loadkey es => revert u; simp [decodeUop, plainUop]; intro u; split <;> (try split) <;> simp
  | encrypt es => revert u; simp [decodeUop, plainUop]; intro u; split <;> (try split) <;> simp
  | decrypt es => revert u; simp [decodeUop, plainUop]; intro u; split <;> (try split) <;> simp
  | illegalOp3 rsv es => revert u; simp [decodeUop, plainUop]; intro u; split <;> (try split) <;> simp
  | illegalRsv rsv op es =>
    revert u; simp [decodeUop, plainUop]; intro u; split <;> (try split) <;> simp
  | uopArk r => rfl
  | uopSub => rfl
  | uopIsub => rfl
  | uopSr => rfl
  | uopIsr => rfl
  | uopMc => rfl
  | uopImc => rfl
  | uopKexp r => rfl
  | uopLdst => rfl
  | uopOutst => rfl
  | uopLdkey => rfl
  | uopReserved r kind => rfl

/-- What no µop touches. -/
theorem execUop_frame {i : Instr} {s t : State} (h : execUop i s = .next t) :
    t.seq = s.seq ∧ t.cmdStream = s.cmdStream ∧ t.keyValid = s.keyValid ∧ t.opnd = s.opnd ∧
      t.free = s.free := by
  cases i with
  | uopArk r =>
    simp only [execUop, execUopArk] at h
    split at h <;> simp at h
    subst h; simp
  | uopKexp r =>
    simp only [execUop, execUopKexp] at h
    split at h <;> simp at h
    subst h; simp
  | uopSub => simp only [execUop, execUopSub, Host.Outcome.next.injEq] at h; subst h; simp
  | uopIsub => simp only [execUop, execUopIsub, Host.Outcome.next.injEq] at h; subst h; simp
  | uopSr => simp only [execUop, execUopSr, Host.Outcome.next.injEq] at h; subst h; simp
  | uopIsr => simp only [execUop, execUopIsr, Host.Outcome.next.injEq] at h; subst h; simp
  | uopMc => simp only [execUop, execUopMc, Host.Outcome.next.injEq] at h; subst h; simp
  | uopImc => simp only [execUop, execUopImc, Host.Outcome.next.injEq] at h; subst h; simp
  | uopLdst => simp only [execUop, execUopLdst, Host.Outcome.next.injEq] at h; subst h; simp
  | uopOutst => simp only [execUop, execUopOutst, Host.Outcome.next.injEq] at h; subst h; simp
  | uopLdkey => simp only [execUop, execUopLdkey, Host.Outcome.next.injEq] at h; subst h; simp
  | uopReserved r kind => simp [execUop, execUopReserved] at h
  | loadkey es => simp [execUop] at h
  | encrypt es => simp [execUop] at h
  | decrypt es => simp [execUop] at h
  | illegalOp3 rsv es => simp [execUop] at h
  | illegalRsv rsv op es => simp [execUop] at h

/-- A µop byte runs the µop it decodes to, and advances `UPC`. -/
theorem runUop_of_decode {u : Byte} {i : Instr} (h : decodeUop u = .ok i) (s : State) :
    runUop u s = andThen (exec i s) fun t => .next (advanceUpc t) := by
  simp [runUop, h, execUop_eq_exec h]

/-- A µop byte that the decoder rejects is refused. -/
theorem runUop_of_error {u : Byte} {r : Reject} (h : decodeUop u = .error r) (s : State) :
    runUop u s = .refused .uopFieldNotZero := by
  simp [runUop, h]

/-- A command whose check passes runs its schedule. -/
theorem checkedCommand_of_ok {cmd : Cmd} {op : BitVec 2} {es : List StreamWord} {s : State}
    (h : check op 0 es s.keyValid = .ok) :
    checkedCommand cmd op es s = runCommand cmd (operandBytes es) s := by
  unfold checkedCommand
  rw [h]

/-- A command whose check fails answers with the code. -/
theorem checkedCommand_of_not_ok {cmd : Cmd} {op : BitVec 2} {es : List StreamWord} {s : State}
    (h : check op 0 es s.keyValid ≠ .ok) :
    checkedCommand cmd op es s = .next (failCommand (check op 0 es s.keyValid) s) := by
  unfold checkedCommand
  split
  · exact absurd ‹_› h
  · rfl

/-- What a command can do when it answers next. -/
theorem checkedCommand_eq_next {cmd : Cmd} {op : BitVec 2} {es : List StreamWord} {s t : State}
    (h : checkedCommand cmd op es s = .next t) :
    (check op 0 es s.keyValid = .ok ∧ runCommand cmd (operandBytes es) s = .next t) ∨
    (check op 0 es s.keyValid ≠ .ok ∧ t = failCommand (check op 0 es s.keyValid) s) := by
  by_cases hc : check op 0 es s.keyValid = .ok
  · rw [checkedCommand_of_ok hc] at h
    exact .inl ⟨hc, h⟩
  · rw [checkedCommand_of_not_ok hc] at h
    exact .inr ⟨hc, by simpa using h.symm⟩

/-- What a run of a command can do when it answers next: its µops have all run from the command's begin,
and then it has ended. -/
theorem runCommand_eq_next {cmd : Cmd} {bytes : Block} {s t : State}
    (h : runCommand cmd bytes s = .next t) :
    ∃ u, runUops (schedule cmd) (beginCommand cmd (schedule cmd) bytes s) = .next u ∧
      t = endCommand cmd u := by
  obtain ⟨u, hu, ht⟩ := andThen_eq_next h
  exact ⟨u, hu, by simpa using ht.symm⟩

/-- The end of a command leaves no command running. -/
@[simp] theorem endCommand_seq (cmd : Cmd) (s : State) : (endCommand cmd s).seq = none := by
  cases cmd <;> rfl

@[simp] theorem endCommand_rk (cmd : Cmd) (s : State) : (endCommand cmd s).rk = s.rk := by
  cases cmd <;> rfl

@[simp] theorem endCommand_cmdStream (cmd : Cmd) (s : State) :
    (endCommand cmd s).cmdStream = s.cmdStream := by
  cases cmd <;> rfl

/-- Every step, said once: of a running core, its sequencer's; of an idle one, the decoded command's, or a
wait. -/
theorem step_cases (s : State) :
    (∃ q, s.seq = some q ∧ step s = sequencerStep q s) ∨
    (s.seq = none ∧ ∃ i rest, decodeCommand s.cmdStream = .ok (i, rest) ∧
      step s = exec i { s with cmdStream := rest }) ∨
    (s.seq = none ∧ ∃ r, decodeCommand s.cmdStream = .error r ∧ step s = .fault (waitFor r)) := by
  unfold step
  cases hq : s.seq with
  | some q => exact .inl ⟨q, rfl, rfl⟩
  | none =>
    cases hd : decodeCommand s.cmdStream with
    | ok p => exact .inr (.inl ⟨rfl, p.1, p.2, rfl, rfl⟩)
    | error r => exact .inr (.inr ⟨rfl, r, rfl, rfl⟩)

/-- `k + 1` steps of the machine are a step and then `k` steps. -/
theorem core_run_succ (k : Nat) (s : State) :
    Host.Core.run Sys2Proof.core (k + 1) s =
      andThen (step s) (Host.Core.run Sys2Proof.core k) := by
  simp only [Host.Core.run]
  split <;> rename_i x h
  · rw [show step s = .next x from h]; rfl
  · rw [show step s = .fault x from h]; rfl
  · rw [show step s = .refused x from h]; rfl

/-- Each round key of an expansion comes from the one before it. -/
theorem expandKey_succ (key : Block) (i : Nat) (h : i < 10) :
    (expandKey key)[i + 1] = nextRoundKey ⟨i, h⟩ (expandKey key)[i] := by
  interval_cases i <;> rfl

/-- A block is 16 data words. -/
theorem dataWords_length (b : Block) : (dataWords b).length = 16 := by
  simp [dataWords]

@[simp] theorem statusWord_ok_true : statusWord .ok true = 0x0100 := by decide

end Sys2Proof.Machine
end

