-- ==== Sys2Proof/Laws/PerInstr.lean ====
section
/-! SUPPORT. Laws about every instruction as syntax, one lemma for each constructor. The family TableRow:
the encoding of a well-formed instruction lies in its row of spec/opcode_table.json. -/

namespace Sys2Proof.Laws.TableRow

/-- The row's `mask` and `match`, of the command word's low byte or of the µop byte, or, for the row
ILLEGAL.RSV and the reserved µops, the row's condition. -/
def inRow : Instr → Code → Prop
  | .loadkey _, .command (w :: _) => w &&& 0x00FF = 0x0000
  | .encrypt _, .command (w :: _) => w &&& 0x00FF = 0x0001
  | .decrypt _, .command (w :: _) => w &&& 0x00FF = 0x0002
  | .illegalOp3 _ _, .command (w :: _) => w &&& 0x0003 = 0x0003
  | .illegalRsv _ _ _, .command (w :: _) => cmdRsv w ≠ 0
  | .uopArk _, .uop u => u &&& 0x0F = 0x00
  | .uopSub, .uop u => u &&& 0x0F = 0x01
  | .uopIsub, .uop u => u &&& 0x0F = 0x02
  | .uopSr, .uop u => u &&& 0x0F = 0x03
  | .uopIsr, .uop u => u &&& 0x0F = 0x04
  | .uopMc, .uop u => u &&& 0x0F = 0x05
  | .uopImc, .uop u => u &&& 0x0F = 0x06
  | .uopKexp _, .uop u => u &&& 0x0F = 0x07
  | .uopLdst, .uop u => u &&& 0x0F = 0x08
  | .uopOutst, .uop u => u &&& 0x0F = 0x09
  | .uopLdkey, .uop u => u &&& 0x0F = 0x0A
  | .uopReserved _ _, .uop u => 0x0B ≤ u &&& 0x0F
  | _, _ => False

/-- The encoding of a well-formed instruction lies in its row of the opcode table. -/
def Statement (i : Instr) : Prop := i.wf = true → inRow i (encode i)

/-- The low byte of a command word does not depend on LEN. -/
theorem low_byte (len : BitVec 8) (rsv : BitVec 6) (op : BitVec 2) :
    cmdWord len rsv op &&& 0x00FF = cmdWord 0 rsv op := by
  apply BitVec.eq_of_toNat_eq
  have h1 := rsv.isLt
  have h2 := op.isLt
  rw [BitVec.toNat_and, show (BitVec.toNat (0x00FF : StreamWord)) = 2 ^ 8 - 1 by rfl,
    Nat.and_two_pow_sub_one_eq_mod]
  simp only [cmdWord, append_toNat, show BitVec.toNat (0 : BitVec 8) = 0 from rfl]
  omega

theorem loadkey (es : List StreamWord) : Statement (.loadkey es) := fun _ => by
  simp only [inRow, encode, commandWords, low_byte]; rfl

theorem encrypt (es : List StreamWord) : Statement (.encrypt es) := fun _ => by
  simp only [inRow, encode, commandWords, low_byte]; rfl

theorem decrypt (es : List StreamWord) : Statement (.decrypt es) := fun _ => by
  simp only [inRow, encode, commandWords, low_byte]; rfl

theorem illegalOp3 (rsv : BitVec 6) (es : List StreamWord) : Statement (.illegalOp3 rsv es) := fun _ => by
  have h : ∀ r : BitVec 6, cmdWord 0 r 3 &&& 0x0003 = 0x0003 := by decide
  have hm : ∀ w : StreamWord, w &&& 0x0003 = (w &&& 0x00FF) &&& 0x0003 := fun w => by
    rw [BitVec.and_assoc]; rfl
  simp only [inRow, encode, commandWords]
  rw [hm, low_byte, h]

theorem illegalRsv (rsv : BitVec 6) (op : BitVec 2) (es : List StreamWord) :
    Statement (.illegalRsv rsv op es) := fun hw => by
  have hr : rsv ≠ 0 := by
    intro h0
    simp [Instr.wf, h0] at hw
  simpa [inRow, encode, commandWords] using hr

theorem uopArk (r : BitVec 4) : Statement (.uopArk r) := fun _ => by
  revert r; simp only [inRow, encode]; decide

theorem uopSub : Statement .uopSub := fun _ => by simp only [inRow, encode]; decide

theorem uopIsub : Statement .uopIsub := fun _ => by simp only [inRow, encode]; decide

theorem uopSr : Statement .uopSr := fun _ => by simp only [inRow, encode]; decide

theorem uopIsr : Statement .uopIsr := fun _ => by simp only [inRow, encode]; decide

theorem uopMc : Statement .uopMc := fun _ => by simp only [inRow, encode]; decide

theorem uopImc : Statement .uopImc := fun _ => by simp only [inRow, encode]; decide

theorem uopKexp (r : BitVec 4) : Statement (.uopKexp r) := fun _ => by
  revert r; simp only [inRow, encode]; decide

theorem uopLdst : Statement .uopLdst := fun _ => by simp only [inRow, encode]; decide

theorem uopOutst : Statement .uopOutst := fun _ => by simp only [inRow, encode]; decide

theorem uopLdkey : Statement .uopLdkey := fun _ => by simp only [inRow, encode]; decide

theorem uopReserved (r kind : BitVec 4) : Statement (.uopReserved r kind) := fun hw => by
  have hk : 11 ≤ kind.toNat := by simpa [Instr.wf] using hw
  revert r kind
  simp only [inRow, encode]
  decide

end Sys2Proof.Laws.TableRow
end

