-- ==== Sys2Proof/Tests/Slice0.lean ====
section
/-! SUPPORT. The model's own tests: words written out from the spec's encodings, single steps against the
values of spec/95_test_vectors.md (V<n>) and the rules' examples, and, for each statement with
hypotheses, a state and operands that meet them. -/

namespace Sys2Proof.Tests

open Sys2Proof.Machine

-- The tests are checked one after another: checked side by side, their threads' stacks pass the memory limit.
set_option Elab.async false

/-! Helpers. -/

/-- The block of a hex string: pair `j` from the left is byte `j` (R13). -/
def hex (n : Nat) : Block := blockOf fun i => BitVec.ofNat 8 (n >>> (8 * (15 - i.val)))

/-- The word of 8 hex digits. -/
def hexWord (n : Nat) : KeyWord := wordOf fun i => BitVec.ofNat 8 (n >>> (8 * (3 - i.val)))

/-- Does it answer next? -/
def isNext : Result → Bool
  | .next _ => true
  | .fault _ => false
  | .refused _ => false

/-- The next state, or the reset state where there is none. -/
def after : Result → State
  | .next s => s
  | .fault _ => State.reset
  | .refused _ => State.reset

theorem eq_next_of_isNext : ∀ {o : Result}, isNext o = true → o = .next (after o)
  | .next _, _ => rfl
  | .fault _, h => by simp [isNext] at h
  | .refused _, h => by simp [isNext] at h

/-- A state with a given working State. -/
def withSt (n : Nat) : State := { State.reset with st := hex n }

/-- The round keys of V30. -/
def keysV30 : RoundKeys :=
  #v[hex 0x000102030405060708090a0b0c0d0e0f,
     hex 0xd6aa74fdd2af72fadaa678f1d6ab76fe,
     hex 0xb692cf0b643dbdf1be9bc5006830b3fe,
     hex 0xb6ff744ed2c2c9bf6c590cbf0469bf41,
     hex 0x47f7f7bc95353e03f96c32bcfd058dfd,
     hex 0x3caaa3e8a99f9deb50f3af57adf622aa,
     hex 0x5e390f7df7a69296a7553dc10aa31f6b,
     hex 0x14f9701ae35fe28c440adf4d4ea9c026,
     hex 0x47438735a41c65b9e016baf4aebf7ad2,
     hex 0x549932d1f08557681093ed9cbe2c974e,
     hex 0x13111d7fe3944a17f307a78b4d2b30c5]

/-- A state with the key of V30 loaded. -/
def keyed : State := { State.reset with keyValid := true, rk := keysV30 }

/-- 16 operand words of value 0. -/
def zeros : List StreamWord := List.replicate 16 0

/-- 16 operand words of value 0xFF, the highest legal one. -/
def highest : List StreamWord := List.replicate 16 0x00FF

/-- 16 operand words, the last of value 0x0100, the lowest illegal one. -/
def tooHigh : List StreamWord := List.replicate 15 0 ++ [0x0100]

/-! WellFormed refuses an ill-formed term for each of its checks. -/

theorem test_wf_loadkey_len : (Instr.loadkey (List.replicate 256 0)).wf = false := by
  decide +kernel

theorem test_wf_encrypt_len : (Instr.encrypt (List.replicate 256 0)).wf = false := by
  decide +kernel

theorem test_wf_decrypt_len : (Instr.decrypt (List.replicate 256 0)).wf = false := by
  decide +kernel

theorem test_wf_illegalOp3_len : (Instr.illegalOp3 0 (List.replicate 256 0)).wf = false := by
  decide +kernel

theorem test_wf_illegalRsv_len : (Instr.illegalRsv 1 0 (List.replicate 256 0)).wf = false := by
  decide +kernel

theorem test_wf_illegalRsv_rsv : (Instr.illegalRsv 0 0 []).wf = false := by decide

theorem test_wf_illegalRsv_op : (Instr.illegalRsv 1 3 []).wf = false := by decide

theorem test_wf_ark : (Instr.uopArk 11).wf = false := by decide

theorem test_wf_kexp_low : (Instr.uopKexp 0).wf = false := by decide

theorem test_wf_kexp_high : (Instr.uopKexp 11).wf = false := by decide

theorem test_wf_reserved : (Instr.uopReserved 0 10).wf = false := by decide

/-! Each constructor's decoding, from words written out from R49, R54 and R58. -/

/-- LEN 2, RSV 0, OP 0 is `0b00000010_000000_00`; what follows the two operand words stays. -/
theorem test_decode_loadkey :
    decodeCommand [0b0000001000000000, 0x0007, 0xFFFF, 0x1001] = .ok (.loadkey [7, 0xFFFF], [0x1001]) := by
  decide

/-- The example of R60: `ENCRYPT.H 00112233445566778899aabbccddeeff`. -/
theorem test_decode_encrypt :
    decodeCommand [0x1001, 0x0000, 0x0011, 0x0022, 0x0033, 0x0044, 0x0055, 0x0066, 0x0077, 0x0088, 0x0099,
      0x00aa, 0x00bb, 0x00cc, 0x00dd, 0x00ee, 0x00ff] =
    .ok (.encrypt (dataWords (hex 0x00112233445566778899aabbccddeeff)), []) := by
  decide

theorem test_decode_decrypt : decodeCommand [0b0000000100000010, 0x0100] = .ok (.decrypt [0x0100], []) := by
  decide

/-- V63's word `0x0f03` shortened to LEN 1: OP 3. -/
theorem test_decode_illegalOp3 : decodeCommand [0x0103, 0x0100] = .ok (.illegalOp3 0 [0x0100], []) := by
  decide

/-- V62's word `0x10fd` with LEN 0: RSV 63, OP 1. -/
theorem test_decode_illegalRsv : decodeCommand [0x00fd] = .ok (.illegalRsv 63 1 [], []) := by decide

theorem test_decode_ark : decodeUop 0b10100000 = .ok (.uopArk 10) := by decide

theorem test_decode_sub : decodeUop 0b00000001 = .ok .uopSub := by decide

theorem test_decode_isub : decodeUop 0b00000010 = .ok .uopIsub := by decide

theorem test_decode_sr : decodeUop 0b00000011 = .ok .uopSr := by decide

theorem test_decode_isr : decodeUop 0b00000100 = .ok .uopIsr := by decide

theorem test_decode_mc : decodeUop 0b00000101 = .ok .uopMc := by decide

theorem test_decode_imc : decodeUop 0b00000110 = .ok .uopImc := by decide

theorem test_decode_kexp : decodeUop 0b10100111 = .ok (.uopKexp 10) := by decide

theorem test_decode_ldst : decodeUop 0b00001000 = .ok .uopLdst := by decide

theorem test_decode_outst : decodeUop 0b00001001 = .ok .uopOutst := by decide

theorem test_decode_ldkey : decodeUop 0b00001010 = .ok .uopLdkey := by decide

theorem test_decode_reserved : decodeUop 0b11111011 = .ok (.uopReserved 15 11) := by decide

/-- KIND 1 takes no R (R58). -/
theorem test_decode_sub_with_r : decodeUop 0b00010001 = .error .uopFieldNotZero := by decide

/-! One step of each instruction. -/

/-- V50 and V30: LOADKEY answers `0x0100` and writes the round keys. -/
theorem test_loadkey :
    (after (step (hostSend (0x1000 :: dataWords (hex 0x000102030405060708090a0b0c0d0e0f)) State.reset))).rk =
      keysV30 := by
  decide +kernel

/-- V53: LOADKEY with 17 operands answers `0x0101` and keeps the old key. -/
theorem test_loadkey_len :
    (after (step (hostSend (0x1100 :: zeros ++ [0]) keyed))).rspStream = [0x0101] := by
  decide +kernel

/-- V1: the source's known-answer test, encryption. -/
theorem test_encrypt :
    (after (step (hostSend (0x1001 :: dataWords (hex 0x00112233445566778899aabbccddeeff)) keyed))).rspStream =
      0x0100 :: dataWords (hex 0x69c4e0d86a7b0430d8cdb78070b4c55a) := by
  decide +kernel

/-- V54: ENCRYPT with 15 operands and no key answers InvalidBlockLength. -/
theorem test_encrypt_len :
    (after (step (hostSend (0x0f01 :: List.replicate 15 0) State.reset))).rspStream = [0x0002] := by
  decide +kernel

/-- V1: the source's known-answer test, decryption. -/
theorem test_decrypt :
    (after (step (hostSend (0x1002 :: dataWords (hex 0x69c4e0d86a7b0430d8cdb78070b4c55a)) keyed))).rspStream =
      0x0100 :: dataWords (hex 0x00112233445566778899aabbccddeeff) := by
  decide +kernel

/-- R102, code 3: a byte value above 0xFF. -/
theorem test_decrypt_byte :
    (after (step (hostSend (0x1002 :: tooHigh) keyed))).rspStream = [0x0103] := by
  decide +kernel

/-- V63: OP 3 with 15 operands, one of them 0x0100, is IllegalCommand, and all its words are taken. -/
theorem test_illegalOp3 :
    (after (step (hostSend (0x0f03 :: 0x0100 :: List.replicate 14 0) keyed))).rspStream = [0x0105] := by
  decide +kernel

theorem test_illegalOp3_takes :
    (after (step (hostSend [0x0203, 1, 2, 0x1005] keyed))).cmdStream = [0x1005] := by
  decide +kernel

/-- V61: RSV 1. -/
theorem test_illegalRsv :
    (after (step (hostSend (0x1004 :: zeros) keyed))).rspStream = [0x0105] := by
  decide +kernel

/-- R75's example. -/
theorem test_ark :
    (after (exec (.uopArk 0) { keyed with st := hex 0x00112233445566778899aabbccddeeff })).st =
      hex 0x00102030405060708090a0b0c0d0e0f0 := by
  decide +kernel

/-- R76's example. -/
theorem test_sub :
    (after (exec .uopSub (withSt 0x00102030405060708090a0b0c0d0e0f0))).st =
      hex 0x63cab7040953d051cd60e0e7ba70e18c := by
  decide +kernel

/-- R77's example. -/
theorem test_isub :
    (after (exec .uopIsub (withSt 0x63cab7040953d051cd60e0e7ba70e18c))).st =
      hex 0x00102030405060708090a0b0c0d0e0f0 := by
  decide +kernel

/-- R78's first example. -/
theorem test_sr :
    (after (exec .uopSr (withSt 0x000102030405060708090a0b0c0d0e0f))).st =
      hex 0x00050a0f04090e03080d02070c01060b := by
  decide +kernel

/-- R79's example. -/
theorem test_isr :
    (after (exec .uopIsr (withSt 0x000102030405060708090a0b0c0d0e0f))).st =
      hex 0x000d0a0704010e0b0805020f0c090603 := by
  decide +kernel

/-- V25, a whole State. -/
theorem test_mc :
    (after (exec .uopMc (withSt 0xdb135345f20a225c01010101c6c6c6c6))).st =
      hex 0x8e4da1bc9fdc589d01010101c6c6c6c6 := by
  decide +kernel

/-- R81's example. -/
theorem test_imc :
    (after (exec .uopImc (withSt 0x5f72641557f5bc92f7be3b291db9f91a))).st =
      hex 0x6353e08c0960e104cd70b751bacad0e7 := by
  decide +kernel

/-- R80, R81: rows of the two matrices, as the rules write them. -/
theorem test_matrix_rows :
    mixMatrix[0] = #v[2, 3, 1, 1] ∧ mixMatrix[1] = #v[1, 2, 3, 1] ∧ mixMatrix[3] = #v[3, 1, 1, 2] ∧
    invMixMatrix[1] = #v[9, 14, 11, 13] ∧ invMixMatrix[2] = #v[13, 9, 14, 11] := by decide

/-- R86 and V26: `TW` of KEXP 1 under the key of V30 (that it stays in `TW` after the round is the model's
choice, log entry 15). -/
theorem test_kexp_temp : (after (exec (.uopKexp 1) keyed)).tw = hexWord 0xd6ab76fe := by
  decide +kernel

/-- V32: KEXP 1 of the all-zero key. -/
theorem test_kexp :
    (after (exec (.uopKexp 1) State.reset)).rk[1] = hex 0x62636363626363636263636362636363 := by
  decide +kernel

theorem test_ldst :
    (after (exec .uopLdst { State.reset with opnd := hex 0x0102 })).st = hex 0x0102 := by
  decide +kernel

/-- R92: the status word first, then byte 0 of `ST`. -/
theorem test_outst :
    (after (exec .uopOutst (withSt 0x69c4e0d86a7b0430d8cdb78070b4c55a))).rspStream.take 3 =
      [0x0100, 0x0069, 0x00c4] := by
  decide +kernel

theorem test_ldkey :
    (after (exec .uopLdkey { State.reset with opnd := hex 0x0102 })).rk[0] = hex 0x0102 := by
  decide +kernel

theorem test_reserved : isNext (exec (.uopReserved 0 11) State.reset) = false := by decide

/-- `withFetchWord` makes the next step run the µop: SUB of zeros is `63` (R76), and `UPC` is 1. -/
theorem test_withFetchWord_uop :
    (after (step (State.reset.withFetchWord 8 0x01))).st = hex 0x63636363636363636363636363636363 := by
  decide +kernel

/-- `withFetchWord` makes the next step run the command: V60. -/
theorem test_withFetchWord_command :
    (after (step (State.reset.withFetchWord 16 0x0003))).rspStream = [0x0005] := by
  decide +kernel

/-- V10. -/
theorem test_xtime : [0x00, 0x57, 0x80, 0xff].map xtime = [0x00, 0xae, 0x1b, 0xe5] := by decide

/-- V11. -/
theorem test_gmul :
    [gmul 0x57 0x83, gmul 0x57 0x13, gmul 0x53 0xca, gmul 0x0b 0x80] = [0xc1, 0xfe, 0x01, 0xf7] := by decide

/-- V13. -/
theorem test_tables : [sbox 0x53, sbox 0xca, invSbox 0xed, invSbox 0x80] = [0xed, 0x74, 0x53, 0x3a] := by
  decide

/-- U4: 0x0006 and 0x0007 are "not a response of this core". -/
theorem test_status_reserved : readStatus 0x0006 = none ∧ readStatus 0x0007 = none ∧
    readStatus 0x0104 = some (.keyNotLoaded, true) := by
  decide

/-- R59: a decimal, a hex number, a comment, a mnemonic in mixed case. -/
theorem test_asm_line :
    asmLine ['C', 'm', 'd', ' ', '3', ',', ' ', '0', ',', '0', 'x', '1', '0', ' ', ';', 'x'] =
      some [0x0103, 0x0010] := by
  decide

/-- R59: an element above 0xFFFF is not of the syntax. -/
theorem test_asm_range : asmLine ['L', 'O', 'A', 'D', 'K', 'E', 'Y', ' ', '6', '5', '5', '3', '6'] = none := by
  decide

/-! For each statement with hypotheses, operands and a state that meet them. -/

theorem legal_of_replicate (b : StreamWord) (h : b.toNat ≤ 0xFF) : LegalOperands (List.replicate 16 b) :=
  ⟨by simp, fun e he => by rw [List.eq_of_mem_replicate he]; exact h⟩

theorem legal_zeros : LegalOperands zeros := legal_of_replicate 0 (by decide)

theorem legal_highest : LegalOperands highest := legal_of_replicate 0x00FF (by decide)

theorem test_meets_DecodeOfEncodeIsTheInstruction :
    (Instr.encrypt (List.replicate 255 0)).wf = true ∧ (Instr.illegalRsv 63 2 []).wf = true ∧
      (Instr.uopArk 10).wf = true ∧ (Instr.uopKexp 1).wf = true ∧ (Instr.uopKexp 10).wf = true ∧
      (Instr.uopReserved 15 11).wf = true := by
  decide +kernel

theorem test_meets_EncodeOfDecodeIsTheWords :
    decodeCommand [0x0103, 0x0100, 0x0003] = .ok (.illegalOp3 0 [0x0100], [0x0003]) ∧
      decodeUop 0xA7 = .ok (.uopKexp 10) := by
  decide

/-- LEN 1 with one operand word there, and with none. -/
theorem test_meets_CommandTakesOnePlusLenWords :
    (0x0100 : StreamWord).toNat / 256 ≤ [(5 : StreamWord)].length ∧
      ([] : List StreamWord).length < (0x0100 : StreamWord).toNat / 256 := by
  decide

/-- A µop byte at each end of the ranges of R, and one just outside. -/
theorem test_meets_ExactlyTheTablesUopsRun :
    [0xA0, 0x17, 0xA7, 0x0A].all (fun u => isNext (runUop u State.reset)) = true ∧
      [0xB0, 0x07, 0xB7, 0x1A, 0x0B].all (fun u => !isNext (runUop u State.reset)) = true := by
  decide +kernel

theorem test_meets_IdleStepRunsTheDecodedCommand :
    Idle (hostSend [0x0003] State.reset) ∧
      decodeCommand (hostSend [0x0003] State.reset).cmdStream = .ok (.illegalOp3 0 [], []) :=
  ⟨rfl, by decide⟩

/-- The first clause with `UPC` 0, the second with `UPC` at the schedule's length. -/
theorem test_meets_RunningStepRunsTheDecodedUop :
    (State.reset.withFetchWord 8 0x05).seq = some { cmd := .encrypt, sched := [0x05], upc := 0 } ∧
      [(0x05 : Byte)][0]? = some 0x05 ∧ decodeUop 0x05 = .ok .uopMc ∧ [(0x05 : Byte)].length ≤ 1 := by
  decide

theorem test_meets_StepWaitsForWords :
    Idle State.reset ∧ State.reset.cmdStream = [] ∧ Idle (hostSend [0x0100] State.reset) ∧
      (hostSend [0x0100] State.reset).cmdStream = [0x0100] ∧
      ([] : List StreamWord).length < (0x0100 : StreamWord).toNat / 256 :=
  ⟨rfl, rfl, rfl, rfl, by decide⟩

theorem test_meets_ArrivedCommandCompletesAtomically :
    Idle (hostSend [0x0100, 5] State.reset) ∧ (hostSend [0x0100, 5] State.reset).cmdStream = [0x0100, 5] ∧
      (0x0100 : StreamWord).toNat / 256 ≤ [(5 : StreamWord)].length :=
  ⟨rfl, rfl, by decide⟩

theorem test_meets_HostPortsCommuteWithSteps :
    step { State.reset with cmdStream := [0x0003], rspStream := [7] } =
        .next { State.reset with rspStream := [7, 0x0005] } ∧
      hostRead { State.reset with cmdStream := [0x0003], rspStream := [7] } =
        some (7, { State.reset with cmdStream := [0x0003] }) :=
  ⟨rfl, rfl⟩

/-- A command row of 16 bits, and a µop row of 8. -/
theorem test_meets_FetchWordRunsTheTableInstruction :
    decodeTableWord 16 0x1001 = some (.encrypt zeros) ∧ decodeTableWord 8 0xA7 = some (.uopKexp 10) := by
  decide +kernel

theorem test_meets_FirstCommandAfterReset : IsReset State.reset ∧ LegalOperands highest :=
  ⟨⟨rfl, rfl, rfl, rfl⟩, legal_highest⟩

theorem test_meets_ValuesAfterResetAreUnobservable :
    IsReset State.reset ∧ IsReset { State.reset with rk := keysV30, st := hex 1 } :=
  ⟨⟨rfl, rfl, rfl, rfl⟩, ⟨rfl, rfl, rfl, rfl⟩⟩

theorem test_meets_LoadkeyExpandsTheKeyOrAnswersTheError :
    LegalOperands zeros ∧ (List.replicate 15 (0 : StreamWord)).length ≠ 16 ∧ tooHigh.length = 16 ∧
      ∃ e ∈ tooHigh, 0xFF < e.toNat :=
  ⟨legal_zeros, by decide, by decide, 0x0100, by decide, by decide⟩

theorem test_meets_EncryptAnswersTheCiphertextOrTheError :
    LegalOperands highest ∧ keyed.keyValid = true ∧ State.reset.keyValid = false ∧
      (List.replicate 17 (0 : StreamWord)).length ≠ 16 ∧ tooHigh.length = 16 ∧
      ∃ e ∈ tooHigh, 0xFF < e.toNat :=
  ⟨legal_highest, rfl, rfl, by decide, by decide, 0x0100, by decide, by decide⟩

theorem test_meets_DecryptAnswersThePlaintextOrTheError :
    LegalOperands zeros ∧ keyed.keyValid = true ∧ State.reset.keyValid = false ∧
      ([] : List StreamWord).length ≠ 16 ∧ tooHigh.length = 16 ∧ ∃ e ∈ tooHigh, 0xFF < e.toNat :=
  ⟨legal_zeros, rfl, rfl, by decide, by decide, 0x0100, by decide, by decide⟩

/-- OP 3 with RSV 0, and RSV 1 with OP 0. -/
theorem test_meets_IllegalWordsAreAnsweredAndIgnored :
    Idle (hostSend [0x0003] State.reset) ∧ (hostSend [0x0003] State.reset).cmdStream = [0x0003] ∧
      (0x0003 : StreamWord).toNat / 256 ≤ ([] : List StreamWord).length ∧
      (0x0003 : StreamWord).toNat % 4 = 3 ∧ (0x0004 : StreamWord).toNat / 4 % 64 ≠ 0 :=
  ⟨rfl, rfl, by decide, by decide, by decide⟩

theorem test_meets_FailedCommandOnlyAnswers :
    Idle (hostSend [0x0000] State.reset) ∧ (hostSend [0x0000] State.reset).cmdStream = [0x0000] ∧
      (0x0000 : StreamWord).toNat / 256 ≤ ([] : List StreamWord).length ∧
      check (cmdOp 0x0000) (cmdRsv 0x0000) [] State.reset.keyValid ≠ .ok :=
  ⟨rfl, rfl, by decide, by decide⟩

theorem test_meets_CommandFrame :
    (∃ t, exec (.loadkey tooHigh) State.reset = .next t) ∧ ¬ LegalOperands tooHigh ∧
      (∃ t, exec (.encrypt zeros) State.reset = .next t) ∧ State.reset.keyValid = false ∧
      ∃ t, exec (.illegalRsv 1 0 []) State.reset = .next t :=
  ⟨⟨_, rfl⟩, fun h => absurd (h.2 0x0100 (by decide)) (by decide), ⟨_, rfl⟩, rfl, ⟨_, rfl⟩⟩

theorem test_meets_OnlySuccessfulLoadkeyWritesKeys :
    ∃ t, Idle (hostSend (0x1000 :: zeros) State.reset) ∧
      step (hostSend (0x1000 :: zeros) State.reset) = .next t ∧
      t.keyValid ≠ (hostSend (0x1000 :: zeros) State.reset).keyValid :=
  ⟨after (step (hostSend (0x1000 :: zeros) State.reset)), rfl, eq_next_of_isNext (by decide +kernel),
    by decide +kernel⟩

theorem test_meets_NoStepClearsKeyValid :
    step { keyed with cmdStream := [0x0003] } = .next { keyed with rspStream := [0x0105] } ∧
      keyed.keyValid = true :=
  ⟨rfl, rfl⟩

theorem test_meets_LoadedKeysDependOnTheKeyAlone : LegalOperands highest ∧ highest[15]? = some 0x00FF :=
  ⟨legal_highest, by decide⟩

/-- Two states that differ in `RK` and `ST`, without a key. -/
theorem test_meets_HiddenStateCarriesNothing :
    SameVisible State.reset { State.reset with rk := keysV30, st := hex 1 } :=
  ⟨rfl, rfl, rfl, fun h => absurd h (by decide), rfl, rfl⟩

/-- Of an idle core, and of a core in the middle of a LOADKEY. -/
theorem test_meets_StepKeepsTheKeyStore :
    KeysInv (hostSend [0x0003] State.reset) ∧
      step (hostSend [0x0003] State.reset) = .next { State.reset with rspStream := [0x0005] } ∧
      KeysInv (beginCommand .loadkey loadkeySchedule (hex 5) State.reset) ∧
      ∃ t, step (beginCommand .loadkey loadkeySchedule (hex 5) State.reset) = .next t :=
  ⟨fun h => absurd h (by decide), rfl, ⟨rfl, by decide, fun j _ h => absurd h (Nat.not_lt_zero j)⟩, ⟨_, rfl⟩⟩

theorem test_meets_KeyStoreHoldsAtResetAndBegin : Idle State.reset ∧ KeysInv State.reset :=
  ⟨rfl, fun h => absurd h (by decide)⟩

theorem test_meets_AtomicCommandIsItsUopRun :
    LegalOperands zeros ∧ keyed.keyValid = true ∧ 42 ≤ (schedule .encrypt).length :=
  ⟨legal_zeros, rfl, by decide⟩

theorem test_meets_MachineRoundTrip : Idle State.reset := rfl

/-- The ends of R's ranges, and just outside them. -/
theorem test_meets_ArkAddsTheRoundKey :
    (10 : BitVec 4).toNat ≤ 10 ∧ 10 < (11 : BitVec 4).toNat ∧
      State.reset.rk[(10 : BitVec 4).toNat]'(by decide) = Vector.replicate 16 0 ∧
      State.reset.st = State.reset.rk[(10 : BitVec 4).toNat]'(by decide) :=
  ⟨by decide, by decide, rfl, rfl⟩

theorem test_meets_SrAndIsrRotateTheRows :
    ∀ (r c : Nat) (hr : r < 4) (hc : c < 4),
      (hex 0x00010203000102030001020300010203)[r + 4 * c] = (hex 0x00010203000102030001020300010203)[r] := by
  intro r c hr hc
  interval_cases r <;> interval_cases c <;> rfl

theorem test_meets_KexpComputesTheNextRoundKey :
    (1 ≤ (1 : BitVec 4).toNat ∧ (1 : BitVec 4).toNat ≤ 10) ∧
      (1 ≤ (10 : BitVec 4).toNat ∧ (10 : BitVec 4).toNat ≤ 10) ∧ (0 : BitVec 4).toNat = 0 ∧
      10 < (11 : BitVec 4).toNat := by
  decide

/-- A core about to run OUTST. -/
theorem test_meets_DataMovementUops :
    KeysInv { State.reset with
        keyValid := true
        rk := expandKey (hex 0)
        seq := some { cmd := .encrypt, sched := encryptSchedule, upc := 41 } } ∧
      encryptSchedule[41]? = some 0x09 :=
  ⟨⟨rfl, by decide, rfl, rfl⟩, by decide⟩

theorem test_meets_UopFrame :
    (∃ t, exec (.uopArk 10) keyed = .next t) ∧ (∃ t, exec (.uopKexp 10) keyed = .next t) ∧
      (∃ t, exec .uopLdkey keyed = .next t) ∧ ∃ t, exec .uopOutst keyed = .next t :=
  ⟨⟨_, rfl⟩, ⟨_, rfl⟩, ⟨_, rfl⟩, ⟨_, rfl⟩⟩

theorem test_meets_GmulFieldLaws : (0x53 : Byte) ≠ 0 ∧ gmul 0x53 0xca = 1 := by decide

theorem test_meets_SboxIsTheAffineMapOfTheInverse : gmul 0x01 0x01 = 1 ∧ gmul 0x02 0x8d = 1 := by decide

theorem test_meets_XtimeDoublesAndReduces : xtime 0 = 0 := by decide

theorem test_meets_CommandLinesAssembleToTheirWords :
    (Instr.illegalOp3 63 []).wf = true ∧
      lineOf (.illegalOp3 63 []) = some ['C', 'M', 'D', ' ', '0', 'x', '0', '0', '0', '3', ',', ' ',
        '0', 'x', '0', '0', '3', 'f'] := by
  decide

end Sys2Proof.Tests
end

namespace Sys2Proof.Machine

/-! Runs of µops that work on `ST`. -/

/-- From any state that holds the round keys `rk` and the working State `b`, the µops of `us` run, leave
`b'` in `ST`, and change nothing else but `UPC`. -/
def Transforms (us : List Byte) (rk : RoundKeys) (b b' : Block) : Prop :=
  ∀ s : State, s.rk = rk → s.st = b → ∃ q, runUops us s = .next { s with st := b', seq := q }

theorem Transforms.append {us vs : List Byte} {rk : RoundKeys} {a b c : Block}
    (hu : Transforms us rk a b) (hv : Transforms vs rk b c) : Transforms (us ++ vs) rk a c := by
  intro s hrk hst
  obtain ⟨q, hq⟩ := hu s hrk hst
  obtain ⟨q', hq'⟩ := hv { s with st := b, seq := q } hrk rfl
  exact ⟨q', by rw [runUops_append, hq, andThen_next, hq']⟩

/-- One µop whose meaning writes `ST` alone. -/
theorem transforms_of_exec {u : Byte} {i : Instr} {rk : RoundKeys} {b b' : Block}
    (hd : decodeUop u = .ok i)
    (he : ∀ s : State, s.rk = rk → s.st = b → exec i s = .next { s with st := b' }) :
    Transforms [u] rk b b' := by
  intro s hrk hst
  exact ⟨(advanceUpc s).seq, by rw [runUops_cons, runUop_of_decode hd, he s hrk hst]; rfl⟩

theorem transforms_ark (rk : RoundKeys) (b : Block) {u : Byte} {r : BitVec 4} (hr : r.toNat ≤ 10)
    (hd : decodeUop u = .ok (.uopArk r)) :
    Transforms [u] rk b (addRoundKey b (rk[r.toNat]'(by omega))) :=
  transforms_of_exec hd fun s hrk hst => by subst hrk hst; exact dif_pos hr

theorem transforms_sub (rk : RoundKeys) (b : Block) : Transforms [0x01] rk b (subBytes b) :=
  transforms_of_exec (i := .uopSub) rfl fun _ _ hst => hst ▸ rfl

theorem transforms_isub (rk : RoundKeys) (b : Block) : Transforms [0x02] rk b (invSubBytes b) :=
  transforms_of_exec (i := .uopIsub) rfl fun _ _ hst => hst ▸ rfl

theorem transforms_sr (rk : RoundKeys) (b : Block) : Transforms [0x03] rk b (shiftRows b) :=
  transforms_of_exec (i := .uopSr) rfl fun _ _ hst => hst ▸ rfl

theorem transforms_isr (rk : RoundKeys) (b : Block) : Transforms [0x04] rk b (invShiftRows b) :=
  transforms_of_exec (i := .uopIsr) rfl fun _ _ hst => hst ▸ rfl

theorem transforms_mc (rk : RoundKeys) (b : Block) : Transforms [0x05] rk b (mixColumns b) :=
  transforms_of_exec (i := .uopMc) rfl fun _ _ hst => hst ▸ rfl

theorem transforms_imc (rk : RoundKeys) (b : Block) : Transforms [0x06] rk b (invMixColumns b) :=
  transforms_of_exec (i := .uopImc) rfl fun _ _ hst => hst ▸ rfl

/-- The µops of one of rounds 1..9 of the forward cipher (R94). -/
theorem transforms_encryptRound (rk : RoundKeys) (b : Block) {u : Byte} {r : BitVec 4}
    (hr : r.toNat ≤ 10) (hd : decodeUop u = .ok (.uopArk r)) :
    Transforms [0x01, 0x03, 0x05, u] rk b (encryptRound (rk[r.toNat]'(by omega)) b) :=
  (((transforms_sub rk b).append (transforms_sr rk _)).append (transforms_mc rk _)).append
    (transforms_ark rk _ hr hd)

/-- The µops of one of the nine middle steps of the inverse cipher (R96). -/
theorem transforms_decryptRound (rk : RoundKeys) (b : Block) {u : Byte} {r : BitVec 4}
    (hr : r.toNat ≤ 10) (hd : decodeUop u = .ok (.uopArk r)) :
    Transforms [u, 0x06, 0x04, 0x02] rk b (decryptRound (rk[r.toNat]'(by omega)) b) :=
  (((transforms_ark rk b hr hd).append (transforms_imc rk _)).append (transforms_isr rk _)).append
    (transforms_isub rk _)

/-- The µops of ENCRYPT between LDST and OUTST compute the forward cipher (R93, R94). -/
theorem transforms_encryptBlock (rk : RoundKeys) (b : Block) :
    Transforms ((encryptSchedule.drop 1).take 40) rk b (encryptBlock rk b) := by
  have ark := transforms_ark rk
  have round := transforms_encryptRound rk
  have h0 : Transforms [0x00] rk _ _ := ark b (r := 0) (by decide) rfl
  have h1 := h0.append (round _ (u := 0x10) (r := 1) (by decide) rfl)
  have h2 := h1.append (round _ (u := 0x20) (r := 2) (by decide) rfl)
  have h3 := h2.append (round _ (u := 0x30) (r := 3) (by decide) rfl)
  have h4 := h3.append (round _ (u := 0x40) (r := 4) (by decide) rfl)
  have h5 := h4.append (round _ (u := 0x50) (r := 5) (by decide) rfl)
  have h6 := h5.append (round _ (u := 0x60) (r := 6) (by decide) rfl)
  have h7 := h6.append (round _ (u := 0x70) (r := 7) (by decide) rfl)
  have h8 := h7.append (round _ (u := 0x80) (r := 8) (by decide) rfl)
  have h9 := h8.append (round _ (u := 0x90) (r := 9) (by decide) rfl)
  exact ((h9.append (transforms_sub rk _)).append (transforms_sr rk _)).append
    (ark _ (u := 0xA0) (r := 10) (by decide) rfl)

/-- The µops of DECRYPT between LDST and OUTST compute the inverse cipher (R95, R96). -/
theorem transforms_decryptBlock (rk : RoundKeys) (b : Block) :
    Transforms ((decryptSchedule.drop 1).take 40) rk b (decryptBlock rk b) := by
  have ark := transforms_ark rk
  have round := transforms_decryptRound rk
  have h10 := ((ark b (u := 0xA0) (r := 10) (by decide) rfl).append
    (transforms_isr rk _)).append (transforms_isub rk _)
  have h9 := h10.append (round _ (u := 0x90) (r := 9) (by decide) rfl)
  have h8 := h9.append (round _ (u := 0x80) (r := 8) (by decide) rfl)
  have h7 := h8.append (round _ (u := 0x70) (r := 7) (by decide) rfl)
  have h6 := h7.append (round _ (u := 0x60) (r := 6) (by decide) rfl)
  have h5 := h6.append (round _ (u := 0x50) (r := 5) (by decide) rfl)
  have h4 := h5.append (round _ (u := 0x40) (r := 4) (by decide) rfl)
  have h3 := h4.append (round _ (u := 0x30) (r := 3) (by decide) rfl)
  have h2 := h3.append (round _ (u := 0x20) (r := 2) (by decide) rfl)
  have h1 := h2.append (round _ (u := 0x10) (r := 1) (by decide) rfl)
  exact h1.append (ark _ (u := 0x00) (r := 0) (by decide) rfl)

/-! The µops that move data (R92). -/

theorem runUop_ldst (s : State) : runUop 0x08 s = .next (advanceUpc { s with st := s.opnd }) := rfl

theorem runUop_outst (s : State) :
    runUop 0x09 s = .next (advanceUpc (emit (0x0100 :: dataWords s.st) s)) := rfl

theorem runUop_ldkey (s : State) :
    runUop 0x0A s = .next (advanceUpc { s with rk := s.rk.set 0 s.opnd }) := rfl

/-- A schedule that is LDST, µops that work on `ST`, and OUTST emits after the status word what those
µops make of the operand bytes. -/
theorem runUops_ldst_outst {us : List Byte} {s : State} {c : Block} (hu : Transforms us s.rk s.opnd c) :
    ∃ q, runUops (0x08 :: (us ++ [0x09])) s =
      .next { s with st := c, seq := q, rspStream := s.rspStream ++ 0x0100 :: dataWords c } := by
  obtain ⟨q, hq⟩ := hu (advanceUpc { s with st := s.opnd }) rfl rfl
  refine ⟨q.map fun p => { p with upc := p.upc + 1 }, ?_⟩
  rw [runUops_cons, runUop_ldst, andThen_next, runUops_append, hq, andThen_next, runUops_cons,
    runUop_outst]
  rfl

/-! The key schedule. -/

/-- The round keys below index `n` are those of the expansion of `key`. -/
def ExpandedBelow (n : Nat) (key : Block) (rk : RoundKeys) : Prop :=
  ∀ (j : Nat) (hj : j < 11), j < n → rk[j] = (expandKey key)[j]

/-- LDKEY writes round key 0. -/
theorem expandedBelow_one (key : Block) (rk : RoundKeys) : ExpandedBelow 1 key (rk.set 0 key) := by
  intro j hj hlt
  obtain rfl : j = 0 := by omega
  simp [expandKey]

/-- KEXP `i + 1` writes the round key after those below it (R87). -/
theorem ExpandedBelow.set_nextRoundKey {key : Block} {rk : RoundKeys} {i : Nat} (hi : i < 10)
    (h : ExpandedBelow (i + 1) key rk) :
    ExpandedBelow (i + 2) key (rk.set (i + 1) (nextRoundKey ⟨i, hi⟩ rk[i])) := by
  intro j hj hlt
  rcases Nat.lt_or_eq_of_le (Nat.le_of_lt_succ hlt) with hlt | rfl
  · rw [Vector.getElem_set_ne _ _ (by omega)]
    exact h j hj hlt
  · rw [Vector.getElem_set_self, expandKey_succ, h i (by omega) (by omega)]

/-- When all 11 round keys are written, the store is the expansion. -/
theorem ExpandedBelow.eq_expandKey {key : Block} {rk : RoundKeys} (h : ExpandedBelow 11 key rk) :
    rk = expandKey key :=
  Vector.ext fun j hj => h j hj hj

/-- The byte of KEXP `i + 1`. -/
def kexpByte (i : Nat) : Byte := uopByte (BitVec.ofNat 4 (i + 1)) 0x7

/-- KEXP `i + 1` writes `TW` and round key `i + 1` (R87). -/
theorem exec_uopKexp_of_toNat_eq {r : BitVec 4} {i : Nat} (hi : i < 10) (hr : r.toNat = i + 1)
    (s : State) :
    exec (.uopKexp r) s = .next { s with
      tw := kexpTemp ⟨i, hi⟩ s.rk[i]
      rk := s.rk.set (i + 1) (nextRoundKey ⟨i, hi⟩ s.rk[i]) } := by
  simp [exec, execUopKexp, hr, nextRoundKey, show i + 1 ≤ 10 by omega]

theorem runUop_kexpByte {i : Nat} (hi : i < 10) (s : State) :
    runUop (kexpByte i) s = .next (advanceUpc { s with
      tw := kexpTemp ⟨i, hi⟩ s.rk[i]
      rk := s.rk.set (i + 1) (nextRoundKey ⟨i, hi⟩ s.rk[i]) }) := by
  have hr : (BitVec.ofNat 4 (i + 1)).toNat = i + 1 := by
    simp only [BitVec.toNat_ofNat]; omega
  have hd : decodeUop (kexpByte i) = .ok (.uopKexp (BitVec.ofNat 4 (i + 1))) := decodeUop_kexp _
  rw [runUop_of_decode hd, exec_uopKexp_of_toNat_eq hi hr, andThen_next]

/-- The µops KEXP `i + 1` to KEXP `i + m` write the round keys up to `i + m`, and nothing else but `TW`
and `UPC`. -/
theorem runUops_kexpBytes (key : Block) (m : Nat) : ∀ (i : Nat) (s : State), i + m ≤ 10 →
    ExpandedBelow (i + 1) key s.rk →
    ∃ rk tw q, runUops ((List.range' i m).map kexpByte) s =
      .next { s with rk := rk, tw := tw, seq := q } ∧ ExpandedBelow (i + m + 1) key rk := by
  induction m with
  | zero => exact fun i s _ h => ⟨s.rk, s.tw, s.seq, rfl, h⟩
  | succ m ih =>
    intro i s him h
    have hi : i < 10 := by omega
    obtain ⟨rk, tw, q, hrun, hrk⟩ :=
      ih (i + 1) (advanceUpc { s with
          tw := kexpTemp ⟨i, hi⟩ s.rk[i]
          rk := s.rk.set (i + 1) (nextRoundKey ⟨i, hi⟩ s.rk[i]) }) (by omega) (h.set_nextRoundKey hi)
    refine ⟨rk, tw, q, ?_, by convert hrk using 1; omega⟩
    rw [List.range'_succ, List.map_cons, runUops_cons, runUop_kexpByte hi, andThen_next, hrun]
    rfl

/-- The schedule of LOADKEY is LDKEY and the ten KEXP µops (R90). -/
theorem loadkeySchedule_eq : loadkeySchedule = 0x0A :: (List.range' 0 10).map kexpByte := by decide

/-- The µops of LOADKEY leave the expansion of the operand bytes in `RK` (R88, R90). -/
theorem runUops_loadkeySchedule (s : State) :
    ∃ tw q, runUops loadkeySchedule s =
      .next { s with rk := expandKey s.opnd, tw := tw, seq := q } := by
  obtain ⟨rk, tw, q, hrun, hrk⟩ := runUops_kexpBytes s.opnd 10 0
    (advanceUpc { s with rk := s.rk.set 0 s.opnd }) (by omega) (expandedBelow_one _ _)
  obtain rfl := hrk.eq_expandKey
  refine ⟨tw, q, ?_⟩
  rw [loadkeySchedule_eq, runUops_cons, runUop_ldkey, andThen_next, hrun]
  rfl

/-! Whole commands. -/

/-- A LOADKEY that passes its checks (R98). -/
theorem runCommand_loadkey (bytes : Block) (s : State) :
    runCommand .loadkey bytes s = .next (releaseWorking { s with
      keyValid := true
      rk := expandKey bytes
      rspStream := s.rspStream ++ [0x0100] }) := by
  obtain ⟨tw, q, hrun⟩ := runUops_loadkeySchedule (beginCommand .loadkey loadkeySchedule bytes s)
  rw [runCommand, schedule, hrun]
  rfl

/-- An ENCRYPT that passes its checks (R99). -/
theorem runCommand_encrypt (bytes : Block) (s : State) :
    runCommand .encrypt bytes s = .next (releaseWorking
      { s with rspStream := s.rspStream ++ 0x0100 :: dataWords (encryptBlock s.rk bytes) }) := by
  obtain ⟨q, hrun⟩ := runUops_ldst_outst (s := beginCommand .encrypt encryptSchedule bytes s)
    (transforms_encryptBlock s.rk bytes)
  exact congrArg (andThen · fun t => .next (endCommand .encrypt t)) hrun

/-- A DECRYPT that passes its checks (R100). -/
theorem runCommand_decrypt (bytes : Block) (s : State) :
    runCommand .decrypt bytes s = .next (releaseWorking
      { s with rspStream := s.rspStream ++ 0x0100 :: dataWords (decryptBlock s.rk bytes) }) := by
  obtain ⟨q, hrun⟩ := runUops_ldst_outst (s := beginCommand .decrypt decryptSchedule bytes s)
    (transforms_decryptBlock s.rk bytes)
  exact congrArg (andThen · fun t => .next (endCommand .decrypt t)) hrun

/-! The checks and the step. -/

theorem any_not_legalByte_iff (es : List StreamWord) :
    es.any (fun e => !legalByte e) = true ↔ ¬ ∀ e ∈ es, e.toNat ≤ 0xFF := by
  simp [legalByte]

/-- A command passes its checks (R103). -/
theorem check_eq_ok_iff (op : BitVec 2) (rsv : BitVec 6) (es : List StreamWord) (kv : Bool) :
    check op rsv es kv = .ok ↔ (op ≠ 3 ∧ rsv = 0) ∧ LegalOperands es ∧ (op = 0 ∨ kv = true) := by
  simp only [check, any_not_legalByte_iff, LegalOperands]
  split_ifs with hillegal hlen hop hbyte hkey
  · exact iff_of_false (by decide) (by tauto)
  · exact iff_of_false (by decide) (by tauto)
  · exact iff_of_false (by decide) (by tauto)
  · exact iff_of_false (by decide) fun ⟨_, _, hor⟩ => hor.elim hkey.1 (by simp [hkey.2])
  · exact iff_of_true rfl ⟨by tauto, by tauto, by simpa [or_iff_not_imp_left] using hkey⟩
  · exact iff_of_false (by decide) (by tauto)

/-- What a command word and its operand words make is a host's command. -/
theorem commandOf_cases (cmd : StreamWord) (es : List StreamWord) :
    commandOf cmd es = .loadkey es ∨ commandOf cmd es = .encrypt es ∨ commandOf cmd es = .decrypt es ∨
      (∃ rsv, commandOf cmd es = .illegalOp3 rsv es) ∨
      ∃ rsv op, commandOf cmd es = .illegalRsv rsv op es := by
  unfold commandOf
  split
  · split <;> simp
  · split <;> simp
  · split <;> simp
  · simp

/-- What the stream decoder reads is a host's command. -/
theorem decodeCommand_cases {ws rest : List StreamWord} {i : Instr} (h : decodeCommand ws = .ok (i, rest)) :
    ∃ es, i = .loadkey es ∨ i = .encrypt es ∨ i = .decrypt es ∨ (∃ rsv, i = .illegalOp3 rsv es) ∨
      ∃ rsv op, i = .illegalRsv rsv op es := by
  cases ws with
  | nil => simp at h
  | cons cmd ws =>
    rcases Nat.lt_or_ge ws.length (cmdLen cmd).toNat with hl | hl
    · simp [decodeCommand_cons_of_lt _ _ hl] at h
    · rw [decodeCommand_cons_of_le _ _ hl] at h
      obtain ⟨rfl, -⟩ : _ = i ∧ _ = rest := by simpa using h
      exact ⟨_, commandOf_cases _ _⟩

/-- What a command read from the stream does: its checks and its run, or the answer to an illegal word
(R55, R101). LOADKEY alone has OP 0. -/
theorem exec_of_decodeCommand {ws rest : List StreamWord} {i : Instr}
    (h : decodeCommand ws = .ok (i, rest)) :
    (∃ cmd op es, (cmd = .loadkey → i = .loadkey es) ∧ (op = 0 → cmd = .loadkey) ∧
      exec i = checkedCommand cmd op es) ∨
    exec i = fun s => .next (failCommand .illegalCommand s) := by
  obtain ⟨es, rfl | rfl | rfl | ⟨rsv, rfl⟩ | ⟨rsv, op, rfl⟩⟩ := decodeCommand_cases h
  · exact .inl ⟨.loadkey, 0, es, by simp, by simp, rfl⟩
  · exact .inl ⟨.encrypt, 1, es, by simp, by simp, rfl⟩
  · exact .inl ⟨.decrypt, 2, es, by simp, by simp, rfl⟩
  · exact .inr rfl
  · exact .inr rfl

/-- A step of an idle core with a whole command on the stream. -/
theorem step_of_decodeCommand {s : State} {i : Instr} {rest : List StreamWord} (hs : Idle s)
    (hd : decodeCommand s.cmdStream = .ok (i, rest)) : step s = exec i { s with cmdStream := rest } := by
  unfold Idle at hs
  simp only [step, hs, hd]

/-- A step of an idle core that waits for words. -/
theorem step_of_reject {s : State} {r : Reject} (hs : Idle s)
    (hd : decodeCommand s.cmdStream = .error r) : step s = .fault (waitFor r) := by
  unfold Idle at hs
  simp only [step, hs, hd]

/-! What writes the keys (R20). -/

/-- A command either leaves `RK` and `KEY_VALID` alone or is a LOADKEY of legal operands. -/
theorem checkedCommand_keys {cmd : Cmd} {op : BitVec 2} {es : List StreamWord} {s t : State}
    (h : checkedCommand cmd op es s = .next t) :
    (t.rk = s.rk ∧ t.keyValid = s.keyValid) ∨
    (cmd = .loadkey ∧ LegalOperands es ∧ t.rk = expandKey (operandBytes es) ∧ t.keyValid = true ∧
      t.rspStream = s.rspStream ++ [0x0100]) := by
  rcases checkedCommand_eq_next h with ⟨hok, hrun⟩ | ⟨-, rfl⟩
  · cases cmd with
    | loadkey =>
      obtain ⟨-, hlegal, -⟩ := (check_eq_ok_iff _ _ _ _).1 hok
      rw [runCommand_loadkey, Host.Outcome.next.injEq] at hrun
      subst hrun
      exact .inr ⟨rfl, hlegal, rfl, rfl, rfl⟩
    | encrypt =>
      rw [runCommand_encrypt, Host.Outcome.next.injEq] at hrun
      subst hrun
      exact .inl ⟨rfl, rfl⟩
    | decrypt =>
      rw [runCommand_decrypt, Host.Outcome.next.injEq] at hrun
      subst hrun
      exact .inl ⟨rfl, rfl⟩
  · exact .inl ⟨rfl, rfl⟩

/-- Settles O25: of an idle core's commands only a LOADKEY of legal operands does not leave `RK` and
`KEY_VALID` alone. -/
theorem onlySuccessfulLoadkeyWritesKeys : Obligations.OnlySuccessfulLoadkeyWritesKeys := by
  intro s t hidle hstep hchange
  have hkept : ¬ (t.rk = s.rk ∧ t.keyValid = s.keyValid) := by tauto
  cases hd : decodeCommand s.cmdStream with
  | error r => simp [step_of_reject hidle hd] at hstep
  | ok p =>
    obtain ⟨i, rest⟩ := p
    rw [step_of_decodeCommand hidle hd] at hstep
    obtain ⟨cmd, op, es, hi, -, hexec⟩ | hexec := exec_of_decodeCommand hd
    · rw [hexec] at hstep
      obtain hkeep | ⟨hcmd, hload⟩ := checkedCommand_keys hstep
      · exact absurd hkeep hkept
      · exact ⟨es, rest, by rw [hi hcmd], hload⟩
    · rw [hexec, Host.Outcome.next.injEq] at hstep
      subst hstep
      exact absurd ⟨rfl, rfl⟩ hkept

/-! What a host can tell apart (R30). -/

theorem SameVisible.setCmdStream {s t : State} (h : SameVisible s t) (ws : List StreamWord) :
    SameVisible { s with cmdStream := ws } { t with cmdStream := ws } := by
  obtain ⟨hs, ht, hkv, hrk, -, hrsp⟩ := h
  exact ⟨hs, ht, hkv, hrk, rfl, hrsp⟩

theorem SameVisible.failCommand {s t : State} (h : SameVisible s t) (code : StatusCode) :
    SameVisible (failCommand code s) (failCommand code t) := by
  obtain ⟨hs, ht, hkv, hrk, hcmd, hrsp⟩ := h
  exact ⟨hs, ht, hkv, hrk, hcmd, by rw [failCommand_rspStream, failCommand_rspStream, hkv, hrsp]⟩

/-- A LOADKEY reads no hidden state, and an ENCRYPT or DECRYPT that runs reads `RK` with a key loaded. -/
theorem SameVisible.runCommand {s t : State} (h : SameVisible s t) {cmd : Cmd}
    (hkey : cmd = .loadkey ∨ s.keyValid = true) (bytes : Block) :
    SameOutcome (runCommand cmd bytes s) (runCommand cmd bytes t) := by
  obtain ⟨-, -, hkv, hrk, hcmd, hrsp⟩ := h
  cases cmd with
  | loadkey =>
    rw [runCommand_loadkey, runCommand_loadkey]
    exact ⟨rfl, rfl, rfl, fun _ => rfl, hcmd, congrArg (· ++ [0x0100]) hrsp⟩
  | encrypt =>
    have hrk : s.rk = t.rk := by simpa using hkey.imp_right hrk
    rw [runCommand_encrypt, runCommand_encrypt, hrk]
    exact ⟨rfl, rfl, hkv, fun _ => rfl, hcmd, congrArg (· ++ _) hrsp⟩
  | decrypt =>
    have hrk : s.rk = t.rk := by simpa using hkey.imp_right hrk
    rw [runCommand_decrypt, runCommand_decrypt, hrk]
    exact ⟨rfl, rfl, hkv, fun _ => rfl, hcmd, congrArg (· ++ _) hrsp⟩

/-- The checks read `KEY_VALID` alone, and pass without a key for LOADKEY only. -/
theorem SameVisible.checkedCommand {s t : State} (h : SameVisible s t) {cmd : Cmd} {op : BitVec 2}
    (hop : op = 0 → cmd = .loadkey) (es : List StreamWord) :
    SameOutcome (checkedCommand cmd op es s) (checkedCommand cmd op es t) := by
  obtain ⟨-, -, hkv, -⟩ := id h
  by_cases hok : check op 0 es s.keyValid = .ok
  · obtain ⟨-, -, hkey⟩ := (check_eq_ok_iff _ _ _ _).1 hok
    rw [checkedCommand_of_ok hok, checkedCommand_of_ok (hkv ▸ hok)]
    exact h.runCommand (hkey.imp_left hop) _
  · rw [checkedCommand_of_not_ok hok, checkedCommand_of_not_ok (hkv ▸ hok), hkv]
    exact h.failCommand _

/-- Settles O29: the decoded command and its checks are the same from both states, and what a command
reads of the rest is visible or not read. -/
theorem hiddenStateCarriesNothing : Obligations.HiddenStateCarriesNothing := by
  intro s t h
  obtain ⟨hs, ht, -, -, hcmd, -⟩ := id h
  cases hd : decodeCommand s.cmdStream with
  | error r =>
    rw [step_of_reject hs hd, step_of_reject ht (hcmd ▸ hd)]
    exact rfl
  | ok p =>
    obtain ⟨i, rest⟩ := p
    rw [step_of_decodeCommand hs hd, step_of_decodeCommand ht (hcmd ▸ hd)]
    obtain ⟨cmd, op, es, -, hop, hexec⟩ | hexec := exec_of_decodeCommand hd
    · rw [hexec]
      exact (h.setCmdStream rest).checkedCommand hop es
    · rw [hexec]
      exact (h.setCmdStream rest).failCommand _

end Sys2Proof.Machine

namespace Sys2Proof.Machine

/-! Characters and tokens of the assembly syntax (R59). -/

theorem cutAt_of_forall_not {p : Char → Bool} {cs : List Char} (h : ∀ c ∈ cs, p c = false) :
    cutAt p cs = (cs, []) := by
  induction cs with
  | nil => rfl
  | cons c cs ih =>
    rw [List.forall_mem_cons] at h
    simp [cutAt, h.1, ih h.2]

theorem cutAt_append_cons {p : Char → Bool} {cs : List Char} {c : Char} (h : ∀ x ∈ cs, p x = false)
    (hc : p c = true) (rest : List Char) : cutAt p (cs ++ c :: rest) = (cs, rest) := by
  induction cs with
  | nil => simp [cutAt, hc]
  | cons x cs ih =>
    rw [List.forall_mem_cons] at h
    simp [cutAt, h.1, ih h.2]

theorem dropBlanks_eq_self {cs : List Char} (h : ∀ c ∈ cs.head?, isBlank c = false) :
    dropBlanks cs = cs := by
  cases cs with
  | nil => rfl
  | cons c cs => simp [dropBlanks, h c rfl]

/-- A text that neither begins nor ends with a blank is its own trim. -/
theorem trim_eq_self {cs : List Char} (hhead : ∀ c ∈ cs.head?, isBlank c = false)
    (hlast : ∀ c ∈ cs.getLast?, isBlank c = false) : trim cs = cs := by
  rw [trim, dropBlanks_eq_self hhead, dropBlanks_eq_self (by rwa [List.head?_reverse]),
    List.reverse_reverse]

/-- Lower case makes no blank and takes none away. -/
@[simp] theorem isBlank_lowerChar (c : Char) : isBlank (lowerChar c) = isBlank c := by
  have hletter : ∀ n ≤ 90, 65 ≤ n → isBlank (Char.ofNat (n + 32)) = isBlank (Char.ofNat n) := by decide
  unfold lowerChar
  split
  · next h => rw [hletter c.toNat h.2 h.1, Char.ofNat_toNat]
  · rfl

/-- The characters within a mnemonic or a hex string: none begins a comment, and none is a blank. -/
def Unbroken (cs : List Char) : Prop := ∀ c ∈ cs, c ≠ ';' ∧ isBlank c = false

theorem Unbroken.trim {cs : List Char} (h : Unbroken cs) : trim cs = cs :=
  trim_eq_self (fun c hc => (h c (List.mem_of_mem_head? hc)).2)
    (fun c hc => (h c (List.mem_of_getLast? hc)).2)

/-- A line of a mnemonic, a space, and text that begins no comment and ends in no blank is read as that
mnemonic and that text, in lower case. -/
theorem asmLine_append_space {mnemonic rest : List Char} (hne : mnemonic ≠ [])
    (hm : Unbroken mnemonic) (hrest : rest ≠ []) (hcomment : ∀ c ∈ rest, c ≠ ';')
    (hlast : ∀ c ∈ rest.getLast?, isBlank c = false) :
    asmLine (mnemonic ++ ' ' :: rest) = asmMnemonic (mnemonic.map lowerChar) (rest.map lowerChar) := by
  have hcut : cutAt (· == ';') (mnemonic ++ ' ' :: rest) = (mnemonic ++ ' ' :: rest, []) := by
    refine cutAt_of_forall_not fun c hc => beq_eq_false_iff_ne.2 ?_
    rcases List.mem_append.1 hc with hc | hc
    · exact (hm c hc).1
    · rcases List.mem_cons.1 hc with rfl | hc
      · decide
      · exact hcomment c hc
  have htrim : trim (mnemonic ++ ' ' :: rest) = mnemonic ++ ' ' :: rest := by
    refine trim_eq_self (fun c hc => ?_) (fun c hc => hlast c ?_)
    · rw [List.head?_append_of_ne_nil _ hne] at hc
      exact (hm c (List.mem_of_mem_head? hc)).2
    · rwa [List.getLast?_append_of_ne_nil _ (List.cons_ne_nil _ _), ← List.singleton_append,
        List.getLast?_append_of_ne_nil _ hrest] at hc
  have hsplit : cutAt isBlank ((mnemonic ++ ' ' :: rest).map lowerChar) =
      (mnemonic.map lowerChar, rest.map lowerChar) := by
    rw [List.map_append, List.map_cons]
    exact cutAt_append_cons (by simpa using fun c hc => (hm c hc).2) rfl _
  unfold asmLine
  rw [hcut, htrim]
  split
  · next h => simp at h
  · simp only [hsplit]

/-! The hex digits of a block (R13, R60). -/

theorem hexDigit_hexChar : ∀ n < 16, hexDigit (hexChar n) = some n := by decide

theorem lowerChar_hexChar : ∀ n < 16, lowerChar (hexChar n) = hexChar n := by decide

theorem hexChar_unbroken : ∀ n < 16, hexChar n ≠ ';' ∧ isBlank (hexChar n) = false := by decide

theorem byte_nibbles_lt (x : Byte) : x.toNat / 16 < 16 ∧ x.toNat % 16 < 16 := by
  have := x.isLt
  omega

/-- What holds of the 16 hex digits holds of every character of a block's hex text. -/
theorem forall_mem_hexText {P : Char → Prop} (h : ∀ n < 16, P (hexChar n)) (b : Block) :
    ∀ c ∈ hexText b, P c := by
  intro c hc
  obtain ⟨x, -, hx⟩ := List.mem_flatMap.1 hc
  obtain ⟨hhigh, hlow⟩ := byte_nibbles_lt x
  rcases List.mem_pair.1 hx with rfl | rfl
  · exact h _ hhigh
  · exact h _ hlow

theorem hexText_unbroken (b : Block) : Unbroken (hexText b) := forall_mem_hexText hexChar_unbroken b

theorem hexText_ne_nil (b : Block) : hexText b ≠ [] := by
  simpa [hexText] using ⟨b[0], Vector.getElem_mem _⟩

@[simp] theorem map_lowerChar_hexText (b : Block) : (hexText b).map lowerChar = hexText b :=
  (List.map_congr_left (forall_mem_hexText lowerChar_hexChar b)).trans (List.map_id _)

/-- The digits of bytes read back as those bytes. -/
theorem hexBytes_flatMap (xs : List Byte) :
    hexBytes (xs.flatMap fun x => [hexChar (x.toNat / 16), hexChar (x.toNat % 16)]) =
      some (xs.map BitVec.toNat) := by
  induction xs with
  | nil => rfl
  | cons x xs ih =>
    obtain ⟨hhigh, hlow⟩ := byte_nibbles_lt x
    simp [hexBytes, ih, hexDigit_hexChar _ hhigh, hexDigit_hexChar _ hlow, Nat.div_add_mod]

/-- The command of a block's bytes: each is in the range of an operand, LEN is 16 and RSV 0. -/
theorem asmCommand_block {op : Nat} (hop : op < 4) (b : Block) :
    asmCommand 0 op (b.toList.map BitVec.toNat) =
      some (cmdWord 16 0 (BitVec.ofNat 2 op) :: dataWords b) := by
  have hbyte (x : Byte) : x.toNat < 65536 := by have := x.isLt; omega
  have hword : BitVec.ofNat 16 ∘ BitVec.toNat = dataWord := funext (BitVec.ofNat_toNat 16)
  simp [asmCommand, inRange, hop, hbyte, commandWords, dataWords, hword]

theorem asmHex_hexText {op : Nat} (hop : op < 4) (b : Block) :
    asmHex op (hexText b) = some (cmdWord 16 0 (BitVec.ofNat 2 op) :: dataWords b) := by
  simp [asmHex, hexText, hexBytes_flatMap, asmCommand_block hop]

/-- A line of a mnemonic and a block's hex text, whose mnemonic is that of a pseudo-instruction. -/
theorem asmLine_hexText {mnemonic : List Char} {op : Nat} (b : Block) (hne : mnemonic ≠ [])
    (hm : Unbroken mnemonic) (hop : op < 4)
    (hasm : ∀ rest, asmMnemonic (mnemonic.map lowerChar) rest = asmHex op (trim rest)) :
    asmLine (mnemonic ++ ' ' :: hexText b) =
      some (cmdWord 16 0 (BitVec.ofNat 2 op) :: dataWords b) := by
  have hb := hexText_unbroken b
  rw [asmLine_append_space hne hm (hexText_ne_nil b) (fun c hc => (hb c hc).1)
    (fun c hc => (hb c (List.mem_of_getLast? hc)).2), map_lowerChar_hexText, hasm, hb.trim,
    asmHex_hexText hop]

/-- Settles O53: each mnemonic is that of its pseudo-instruction, and its hex text reads back as the
block's bytes. -/
theorem hexLinesAssembleToTheirWords : Obligations.HexLinesAssembleToTheirWords := fun b =>
  ⟨asmLine_hexText (mnemonic := ['L', 'O', 'A', 'D', 'K', 'E', 'Y', '.', 'H']) (op := 0) b
      (by simp) (by simp [Unbroken, isBlank]) (by decide) fun _ => rfl,
    asmLine_hexText (mnemonic := ['E', 'N', 'C', 'R', 'Y', 'P', 'T', '.', 'H']) (op := 1) b
      (by simp) (by simp [Unbroken, isBlank]) (by decide) fun _ => rfl,
    asmLine_hexText (mnemonic := ['D', 'E', 'C', 'R', 'Y', 'P', 'T', '.', 'H']) (op := 2) b
      (by simp) (by simp [Unbroken, isBlank]) (by decide) fun _ => rfl⟩

end Sys2Proof.Machine

namespace Sys2Proof.Machine

/-! Doubling (R61). -/

theorem ite_bxor (p q : Bool) (x : Byte) :
    (if p ^^ q then x else 0) = (if p then x else 0) ^^^ (if q then x else 0) := by
  cases p <;> cases q <;> simp

theorem xtime_zero : xtime 0 = 0 := rfl

theorem xtime_xor (a b : Byte) : xtime (a ^^^ b) = xtime a ^^^ xtime b := by
  rw [xtime, BitVec.shiftLeft_xor_distrib, BitVec.getLsbD_xor, ite_bxor, xtime, xtime]
  ac_rfl

theorem toNat_xtime (b : Byte) :
    (xtime b).toNat = (2 * b.toNat % 256) ^^^ (if 128 ≤ b.toNat then 0x1B else 0) := by
  have hbit : b.getLsbD 7 = decide (128 ≤ b.toNat) := by
    rw [← BitVec.msb_eq_getLsbD_last, BitVec.msb_eq_decide]
  rw [xtime, hbit, BitVec.toNat_xor, BitVec.toNat_shiftLeft, Nat.shiftLeft_eq, Nat.mul_comm,
    apply_ite BitVec.toNat]
  simp

/-- The shifted byte is even and 0x1B is odd, so a reduction never gives 0. -/
theorem xtime_eq_zero {b : Byte} (h : xtime b = 0) : b = 0 := by
  have hparts := toNat_xtime b
  rw [h] at hparts
  have heq := Nat.xor_eq_zero_iff.1 hparts.symm
  split at heq
  · omega
  · bv_omega

/-- Settles O45: the two parts of `xtime`, and their parity. -/
theorem xtimeDoublesAndReduces : Obligations.XtimeDoublesAndReduces :=
  fun b => ⟨toNat_xtime b, xtime_eq_zero⟩

/-- A byte is twice its upper bits, plus its lowest bit. -/
theorem byte_eq_xtime_xor (b : Byte) :
    b = xtime (b >>> 1) ^^^ (if b.getLsbD 0 then 1 else 0) := by
  have hshift : xtime (b >>> 1) = b >>> 1 <<< 1 := by simp [xtime]
  rw [hshift]
  ext i hi
  rw [← BitVec.getLsbD_eq_getElem, ← BitVec.getLsbD_eq_getElem]
  cases i with
  | zero => cases h : b.getLsbD 0 <;> simp
  | succ i => cases b.getLsbD 0 <;> simp [hi, Nat.add_comm 1 i]

/-- What holds of 0 and is kept by doubling and by doubling plus 1 holds of every byte. -/
theorem byte_induction {P : Byte → Prop} (zero : P 0) (double : ∀ a, P a → P (xtime a))
    (double_succ : ∀ a, P a → P (xtime a ^^^ 1)) (b : Byte) : P b := by
  by_cases hb : b = 0
  · exact hb ▸ zero
  · have hhalf := byte_induction zero double double_succ (b >>> 1)
    rw [byte_eq_xtime_xor b]
    split
    · exact double_succ _ hhalf
    · simpa using double _ hhalf
termination_by b.toNat
decreasing_by
  have hpos : 0 < b.toNat := by bv_omega
  rw [BitVec.toNat_ushiftRight, Nat.shiftRight_eq_div_pow]
  omega

/-! The double-and-add loop (R62). -/

theorem gmulLoop_eq_xor (n : Nat) (p x y : Byte) : gmulLoop n p x y = p ^^^ gmulLoop n 0 x y := by
  induction n generalizing p x y with
  | zero => simp [gmulLoop]
  | succ n ih =>
    rw [gmulLoop, gmulLoop]
    split
    · rw [ih, ih (0 ^^^ x)]
      simp [BitVec.xor_assoc]
    · exact ih ..

/-- One pass of the loop from the product 0. -/
theorem gmulLoop_succ (n : Nat) (x y : Byte) :
    gmulLoop (n + 1) 0 x y = (if y.getLsbD 0 then x else 0) ^^^ gmulLoop n 0 (xtime x) (y >>> 1) := by
  rw [gmulLoop, gmulLoop_eq_xor, show 0 ^^^ x = x from BitVec.zero_xor]

theorem gmulLoop_xor_left (n : Nat) (x x' y : Byte) :
    gmulLoop n 0 (x ^^^ x') y = gmulLoop n 0 x y ^^^ gmulLoop n 0 x' y := by
  induction n generalizing x x' y with
  | zero => simp [gmulLoop]
  | succ n ih =>
    rw [gmulLoop_succ, gmulLoop_succ, gmulLoop_succ, xtime_xor, ih]
    split
    · ac_rfl
    · simp

theorem gmulLoop_xor_right (n : Nat) (x y y' : Byte) :
    gmulLoop n 0 x (y ^^^ y') = gmulLoop n 0 x y ^^^ gmulLoop n 0 x y' := by
  induction n generalizing x y y' with
  | zero => simp [gmulLoop]
  | succ n ih =>
    rw [gmulLoop_succ, gmulLoop_succ, gmulLoop_succ, BitVec.ushiftRight_xor_distrib, ih,
      BitVec.getLsbD_xor, ite_bxor]
    ac_rfl

theorem gmulLoop_xtime (n : Nat) (x y : Byte) :
    gmulLoop n 0 (xtime x) y = xtime (gmulLoop n 0 x y) := by
  induction n generalizing x y with
  | zero => rw [gmulLoop, gmulLoop, xtime_zero]
  | succ n ih =>
    rw [gmulLoop_succ, gmulLoop_succ, xtime_xor, ih, apply_ite xtime, xtime_zero]

/-! The field product (R63). -/

theorem gmul_xor_left (a a' b : Byte) : gmul (a ^^^ a') b = gmul a b ^^^ gmul a' b :=
  gmulLoop_xor_left 8 a a' b

theorem gmul_xor_right (a b b' : Byte) : gmul a (b ^^^ b') = gmul a b ^^^ gmul a b' :=
  gmulLoop_xor_right 8 a b b'

theorem gmul_xtime_left (a b : Byte) : gmul (xtime a) b = xtime (gmul a b) :=
  gmulLoop_xtime 8 a b

theorem gmul_zero_left (b : Byte) : gmul 0 b = 0 := by
  simpa using gmul_xor_left 0 0 b

theorem gmul_zero_right (a : Byte) : gmul a 0 = 0 := by
  simpa using gmul_xor_right a 0 0

/-- The loop rebuilds the right factor from its bits. -/
theorem gmul_one_left : ∀ b : Byte, gmul 1 b = b := by decide

theorem gmul_two_left (b : Byte) : gmul 2 b = xtime b := by
  rw [show (2 : Byte) = xtime 1 by rfl, gmul_xtime_left, gmul_one_left]

theorem gmul_three_left (b : Byte) : gmul 3 b = xtime b ^^^ b := by
  rw [show (3 : Byte) = 2 ^^^ 1 by rfl, gmul_xor_left, gmul_two_left, gmul_one_left]

theorem gmul_xtime_right (a b : Byte) : gmul a (xtime b) = xtime (gmul a b) := by
  induction a using byte_induction with
  | zero => rw [gmul_zero_left, gmul_zero_left, xtime_zero]
  | double a ih => simp only [gmul_xtime_left, ih]
  | double_succ a ih => simp only [gmul_xor_left, gmul_xtime_left, gmul_one_left, xtime_xor, ih]

theorem gmul_one_right (a : Byte) : gmul a 1 = a := by
  induction a using byte_induction with
  | zero => rw [gmul_zero_left]
  | double a ih => rw [gmul_xtime_left, ih]
  | double_succ a ih => rw [gmul_xor_left, gmul_xtime_left, ih, gmul_one_left]

theorem gmul_comm (a b : Byte) : gmul a b = gmul b a := by
  induction a using byte_induction with
  | zero => rw [gmul_zero_left, gmul_zero_right]
  | double a ih => rw [gmul_xtime_left, gmul_xtime_right, ih]
  | double_succ a ih =>
    rw [gmul_xor_left, gmul_xor_right, gmul_xtime_left, gmul_xtime_right, ih, gmul_one_left,
      gmul_one_right]

theorem gmul_assoc (a b c : Byte) : gmul (gmul a b) c = gmul a (gmul b c) := by
  induction a using byte_induction with
  | zero => simp only [gmul_zero_left]
  | double a ih => simp only [gmul_xtime_left, ih]
  | double_succ a ih => simp only [gmul_xor_left, gmul_xtime_left, gmul_one_left, ih]

/-- A byte has at most one inverse. -/
theorem eq_of_gmul_eq_one {a d e : Byte} (hd : gmul a d = 1) (he : gmul a e = 1) : e = d :=
  calc
    e = gmul (gmul a d) e := by rw [hd, gmul_one_left]
    _ = gmul d (gmul a e) := by rw [gmul_comm a d, gmul_assoc]
    _ = d := by rw [he, gmul_one_right]

/-! The inverse, read off the S-box (R70). -/

/-- The inverse of the affine map of R70. -/
def sboxAffineInv (x : Byte) : Byte := rotl8 x 1 ^^^ rotl8 x 3 ^^^ rotl8 x 6 ^^^ 0x05

theorem sboxAffine_sboxAffineInv : ∀ x : Byte, sboxAffine (sboxAffineInv x) = x := by decide

/-- Every entry of the S-box but the first is the affine map of an inverse. -/
theorem gmul_sboxAffineInv_sbox : ∀ b : Byte, b ≠ 0 → gmul b (sboxAffineInv (sbox b)) = 1 := by decide

/-- Settles O47: the product is additive on both sides and doubles with either factor, which gives its
laws by induction on a byte's bits; the S-box holds the inverses. -/
theorem gmulFieldLaws : Obligations.GmulFieldLaws := fun a b c =>
  ⟨gmul_one_right a, gmul_zero_right a, gmul_comm a b, gmul_two_left a, gmul_three_left a,
    gmul_xor_right a b c, (gmul_assoc a b c).symm, fun ha =>
    ⟨_, gmul_sboxAffineInv_sbox a ha, fun _ => eq_of_gmul_eq_one (gmul_sboxAffineInv_sbox a ha)⟩⟩

/-- Settles O49: a byte's only inverse is the one its S-box entry holds. -/
theorem sboxIsTheAffineMapOfTheInverse : Obligations.SboxIsTheAffineMapOfTheInverse := by
  refine ⟨by decide, fun b c h => ?_⟩
  have hb : b ≠ 0 := by
    rintro rfl
    rw [gmul_zero_left] at h
    exact absurd h (by decide)
  rw [eq_of_gmul_eq_one (gmul_sboxAffineInv_sbox b hb) h, sboxAffine_sboxAffineInv]

/-! The tables (R69, R72). -/

theorem invSbox_sbox : ∀ b : Byte, invSbox (sbox b) = b := by decide

theorem sbox_invSbox : ∀ b : Byte, sbox (invSbox b) = b := by decide

/-- Settles O48, entry by entry. -/
theorem sboxTablesAreInverse : Obligations.SboxTablesAreInverse :=
  fun b => ⟨invSbox_sbox b, sbox_invSbox b⟩

theorem rcon_succ : ∀ i : Fin 9, rcon i.succ = xtime (rcon i.castSucc) := by decide

/-- Settles O50: the table's entries, and the round-constant step byte by byte. -/
theorem roundConstantsDouble : Obligations.RoundConstantsDouble :=
  ⟨rfl, fun i h => rcon_succ ⟨i, by omega⟩, rfl, fun _ _ => ⟨rfl, rfl, rfl, rfl⟩⟩

end Sys2Proof.Machine

namespace Sys2Proof.Machine

/-! What the round µops do (R76 to R81). -/

theorem exec_uopSub (s : State) : exec .uopSub s = .next { s with st := subBytes s.st } := rfl
theorem exec_uopIsub (s : State) : exec .uopIsub s = .next { s with st := invSubBytes s.st } := rfl
theorem exec_uopSr (s : State) : exec .uopSr s = .next { s with st := shiftRows s.st } := rfl
theorem exec_uopIsr (s : State) : exec .uopIsr s = .next { s with st := invShiftRows s.st } := rfl
theorem exec_uopMc (s : State) : exec .uopMc s = .next { s with st := mixColumns s.st } := rfl
theorem exec_uopImc (s : State) : exec .uopImc s = .next { s with st := invMixColumns s.st } := rfl

/-! SubBytes and its inverse (R76, R77). -/

theorem invSubBytes_subBytes (s : Block) : invSubBytes (subBytes s) = s :=
  Vector.ext fun i hi => by rw [invSubBytes_getElem, subBytes_getElem, invSbox_sbox]

theorem subBytes_invSubBytes (s : Block) : subBytes (invSubBytes s) = s :=
  Vector.ext fun i hi => by rw [subBytes_getElem, invSubBytes_getElem, sbox_invSbox]

/-- Settles O37: byte by byte, by the tables, which are mutual inverses (R69). -/
theorem subAndIsubSubstituteEachByte : Obligations.SubAndIsubSubstituteEachByte := by
  refine ⟨rfl, rfl, fun s => ⟨_, exec_uopSub s, rfl, subBytes_getElem s.st, ?_⟩,
    fun s => ⟨_, exec_uopIsub s, rfl, invSubBytes_getElem s.st, ?_⟩, rfl, rfl, rfl, rfl⟩
  · rw [exec_uopIsub, invSubBytes_subBytes]
  · rw [exec_uopSub, subBytes_invSubBytes]

/-! ShiftRows and its inverse by rows (R78, R79). -/

/-- Two blocks are equal when they agree at every row and column. -/
theorem block_eq_of_rows {a b : Block}
    (h : ∀ (r c : Nat) (hr : r < 4) (hc : c < 4), a[r + 4 * c] = b[r + 4 * c]) : a = b :=
  Vector.ext fun i hi => by
    simpa [Nat.mod_add_div] using h (i % 4) (i / 4) (by omega) (by omega)

theorem shiftRows_row (s : Block) {r c : Nat} (hr : r < 4) (hc : c < 4) :
    (shiftRows s)[r + 4 * c] = s[r + 4 * ((c + r) % 4)] := by
  simp [show (r + 4 * c) / 4 = c by omega, show r % 4 = r by omega]

theorem invShiftRows_row (s : Block) {r c : Nat} (hr : r < 4) (hc : c < 4) :
    (invShiftRows s)[r + 4 * c] = s[r + 4 * ((c + 4 - r) % 4)] := by
  simp [show (r + 4 * c) / 4 = c by omega, show r % 4 = r by omega]

theorem invShiftRows_shiftRows (s : Block) : invShiftRows (shiftRows s) = s :=
  block_eq_of_rows fun r c hr hc => by
    rw [invShiftRows_row _ hr hc, shiftRows_row _ hr (Nat.mod_lt _ (by decide))]
    simp only [show ((c + 4 - r) % 4 + r) % 4 = c by omega]

theorem shiftRows_invShiftRows (s : Block) : shiftRows (invShiftRows s) = s :=
  block_eq_of_rows fun r c hr hc => by
    rw [shiftRows_row _ hr hc, invShiftRows_row _ hr (Nat.mod_lt _ (by decide))]
    simp only [show ((c + r) % 4 + 4 - r) % 4 = c by omega]

/-- `k` ShiftRows rotate row `r` left by `k * r` positions. -/
theorem shiftRows_iterate_row (k : Nat) (s : Block) {r c : Nat} (hr : r < 4) (hc : c < 4) :
    (shiftRows^[k] s)[r + 4 * c] = s[r + 4 * ((c + k * r) % 4)] := by
  induction k generalizing s with
  | zero => simp [Nat.mod_eq_of_lt hc]
  | succ k ih =>
    rw [Function.iterate_succ_apply, ih, shiftRows_row _ hr (Nat.mod_lt _ (by decide))]
    simp only [show ((c + k * r) % 4 + r) % 4 = (c + (k + 1) * r) % 4 by rw [Nat.succ_mul]; omega]

theorem shiftRows_iterate_four (s : Block) : shiftRows^[4] s = s :=
  block_eq_of_rows fun r c hr hc => by
    rw [shiftRows_iterate_row 4 s hr hc]
    simp only [show (c + 4 * r) % 4 = c by omega]

/-- Two ShiftRows move the odd rows by two columns and no other row. -/
theorem shiftRows_shiftRows_row (s : Block) {r c : Nat} (hr : r < 4) (hc : c < 4) :
    (shiftRows (shiftRows s))[r + 4 * c] =
      if r % 2 = 1 then s[r + 4 * ((c + 2) % 4)] else s[r + 4 * c] := by
  have htwice : (shiftRows (shiftRows s))[r + 4 * c] = s[r + 4 * ((c + 2 * r) % 4)] :=
    shiftRows_iterate_row 2 s hr hc
  split
  · simp only [htwice, show (c + 2 * r) % 4 = (c + 2) % 4 by omega]
  · simp only [htwice, show (c + 2 * r) % 4 = c by omega]

/-- A block whose every row holds one value, that of its column 0. -/
def ConstantRows (s : Block) : Prop :=
  ∀ (r c : Nat) (hr : r < 4) (hc : c < 4), s[r + 4 * c] = s[r]

theorem ConstantRows.shiftRows_eq {s : Block} (h : ConstantRows s) : shiftRows s = s :=
  block_eq_of_rows fun r c hr hc => by
    rw [shiftRows_row s hr hc, h r _ hr (Nat.mod_lt _ (by decide)), h r c hr hc]

theorem ConstantRows.invShiftRows_eq {s : Block} (h : ConstantRows s) : invShiftRows s = s := by
  simpa only [h.shiftRows_eq] using invShiftRows_shiftRows s

/-- Settles O38: both read each row at a rotated column. -/
theorem srAndIsrRotateTheRows : Obligations.SrAndIsrRotateTheRows := by
  refine ⟨rfl, rfl, fun s => ⟨_, _, exec_uopSr s, rfl, exec_uopIsr s, rfl, ?_, ?_,
    fun r c hr hc => ⟨shiftRows_row _ hr hc, invShiftRows_row _ hr hc, shiftRows_shiftRows_row _ hr hc⟩,
    rfl, rfl, shiftRows_iterate_four s.st, fun h => ?_⟩⟩
  · rw [exec_uopIsr, invShiftRows_shiftRows]
  · rw [exec_uopSr, shiftRows_invShiftRows]
  · have hrows : ConstantRows s.st := h
    exact ⟨by rw [hrows.shiftRows_eq], by rw [hrows.invShiftRows_eq]⟩

/-! Products of a row, a matrix and a column over GF(2^8) (R80 to R82). -/

/-- The sum of the field products of a row and a column. -/
def dot (u a : KeyWord) : Byte :=
  gmul u[0] a[0] ^^^ gmul u[1] a[1] ^^^ gmul u[2] a[2] ^^^ gmul u[3] a[3]

/-- A matrix times a column. -/
def matVec (m : Vector KeyWord 4) (a : KeyWord) : KeyWord := wordOf fun r => dot m[r.val] a

/-- A row times a matrix. -/
def vecMat (u : KeyWord) (m : Vector KeyWord 4) : KeyWord :=
  wordOf fun j => dot u (wordOf fun k => m[k.val][j.val])

/-- Row `i` of the identity matrix. -/
def unitRow (i : Fin 4) : KeyWord := wordOf fun j => if i = j then 1 else 0

/-- A row times a column that is itself a product: the matrix goes to the row. -/
theorem dot_matVec (u : KeyWord) (m : Vector KeyWord 4) (a : KeyWord) :
    dot u (matVec m a) = dot (vecMat u m) a := by
  simp only [dot, matVec, vecMat, wordOf_getElem, gmul_xor_left, gmul_xor_right, gmul_assoc]
  ac_rfl

/-- A column of four equal bytes is multiplied by the sum of the row. -/
theorem dot_const (u : KeyWord) (b : Byte) :
    dot u #v[b, b, b, b] = gmul (u[0] ^^^ u[1] ^^^ u[2] ^^^ u[3]) b := by
  simp [dot, gmul_xor_left]

theorem dot_unitRow (i : Fin 4) (a : KeyWord) : dot (unitRow i) a = a[i.val] := by
  have hentry (j : Fin 4) (b : Byte) : gmul (if i = j then 1 else 0) b = if i = j then b else 0 := by
    split
    · exact gmul_one_left b
    · exact gmul_zero_left b
  simp only [dot, unitRow, wordOf_getElem, hentry]
  fin_cases i <;> simp

/-- A matrix that a second one takes to the identity, row by row, is undone by it. -/
theorem matVec_matVec_of_vecMat {m n : Vector KeyWord 4} (h : ∀ i : Fin 4, vecMat m[i.val] n = unitRow i)
    (a : KeyWord) : matVec m (matVec n a) = a := by
  ext i hi : 1
  rw [matVec, wordOf_getElem, dot_matVec, h, dot_unitRow]

/-- A matrix whose row sums are 1 keeps a column of four equal bytes. -/
theorem matVec_const {m : Vector KeyWord 4}
    (h : ∀ i : Fin 4, m[i.val][0] ^^^ m[i.val][1] ^^^ m[i.val][2] ^^^ m[i.val][3] = 1) (b : Byte) :
    matVec m #v[b, b, b, b] = #v[b, b, b, b] := by
  have hdot (i : Fin 4) : dot m[i.val] #v[b, b, b, b] = b := by rw [dot_const, h, gmul_one_left]
  simp only [matVec, hdot]
  rfl

/-! MixColumns and its inverse as matrix products. -/

/-- R80's form with `xtime` and `t` is the product with the matrix. -/
theorem mixColumn_eq_matVec (a : KeyWord) : mixColumn a = matVec mixMatrix a :=
  calc
    mixColumn a = #v[
        gmul 2 a[0] ^^^ gmul 3 a[1] ^^^ gmul 1 a[2] ^^^ gmul 1 a[3],
        gmul 1 a[0] ^^^ gmul 2 a[1] ^^^ gmul 3 a[2] ^^^ gmul 1 a[3],
        gmul 1 a[0] ^^^ gmul 1 a[1] ^^^ gmul 2 a[2] ^^^ gmul 3 a[3],
        gmul 3 a[0] ^^^ gmul 1 a[1] ^^^ gmul 1 a[2] ^^^ gmul 2 a[3]] := by
      simp only [mixColumn, triple, gmul_one_left, gmul_two_left, gmul_three_left]
    _ = matVec mixMatrix a := rfl

theorem invMixColumn_eq_matVec (a : KeyWord) : invMixColumn a = matVec invMixMatrix a := rfl

theorem vecMat_invMixMatrix_mixMatrix :
    ∀ i : Fin 4, vecMat invMixMatrix[i.val] mixMatrix = unitRow i := by decide

theorem vecMat_mixMatrix_invMixMatrix :
    ∀ i : Fin 4, vecMat mixMatrix[i.val] invMixMatrix = unitRow i := by decide

theorem invMixColumn_mixColumn (a : KeyWord) : invMixColumn (mixColumn a) = a := by
  rw [invMixColumn_eq_matVec, mixColumn_eq_matVec,
    matVec_matVec_of_vecMat vecMat_invMixMatrix_mixMatrix]

theorem mixColumn_invMixColumn (a : KeyWord) : mixColumn (invMixColumn a) = a := by
  rw [invMixColumn_eq_matVec, mixColumn_eq_matVec,
    matVec_matVec_of_vecMat vecMat_mixMatrix_invMixMatrix]

@[simp] theorem column_mixColumns (s : Block) (c : Fin 4) :
    column (mixColumns s) c = mixColumn (column s c) :=
  column_blockOfColumns _ c

@[simp] theorem column_invMixColumns (s : Block) (c : Fin 4) :
    column (invMixColumns s) c = invMixColumn (column s c) :=
  column_blockOfColumns _ c

theorem invMixColumns_mixColumns (s : Block) : invMixColumns (mixColumns s) = s :=
  block_eq_of_columns fun c => by
    rw [column_invMixColumns, column_mixColumns, invMixColumn_mixColumn]

theorem mixColumns_invMixColumns (s : Block) : mixColumns (invMixColumns s) = s :=
  block_eq_of_columns fun c => by
    rw [column_mixColumns, column_invMixColumns, mixColumn_invMixColumn]

/-- Byte `r` of column `c` of a block whose column `c` is a matrix product. -/
theorem getElem_of_column_eq_matVec {b s : Block} {m : Vector KeyWord 4} {r c : Nat} (hr : r < 4)
    (hc : c < 4) (h : column b ⟨c, hc⟩ = matVec m (column s ⟨c, hc⟩)) :
    b[4 * c + r] = gmul m[r][0] s[4 * c] ^^^ gmul m[r][1] s[4 * c + 1] ^^^
      gmul m[r][2] s[4 * c + 2] ^^^ gmul m[r][3] s[4 * c + 3] := by
  have hbyte := congrArg (fun a : KeyWord => a[r]) h
  simpa [matVec, dot] using hbyte

/-- Settles O39: each column is multiplied by a matrix whose row sums are 1. -/
theorem mcAndImcMultiplyByTheMatrix : Obligations.McAndImcMultiplyByTheMatrix := by
  refine ⟨rfl, rfl, fun s => ⟨_, exec_uopMc s, rfl, fun r c hr hc => ?_⟩,
    fun s => ⟨_, exec_uopImc s, rfl, fun r c hr hc => ?_⟩, fun b => ⟨?_, ?_⟩, by decide, by decide⟩
  · exact getElem_of_column_eq_matVec hr hc (by rw [column_mixColumns, mixColumn_eq_matVec])
  · exact getElem_of_column_eq_matVec hr hc (by rw [column_invMixColumns, invMixColumn_eq_matVec])
  · rw [mixColumn_eq_matVec, matVec_const (by decide)]
  · rw [invMixColumn_eq_matVec, matVec_const (by decide)]

/-- Settles O40: the product of the two matrices is the identity in either order, so each column comes
back. -/
theorem mixColumnsAndInverseAreInverse : Obligations.MixColumnsAndInverseAreInverse := by
  refine ⟨fun s => ⟨invMixColumns_mixColumns s, mixColumns_invMixColumns s⟩, fun i j hi hj => ?_⟩
  have hentry := congrArg (fun u : KeyWord => u[j]) (vecMat_invMixMatrix_mixMatrix ⟨i, hi⟩)
  simpa [vecMat, dot, unitRow] using hentry

end Sys2Proof.Machine

namespace Sys2Proof.Machine

/-! A LOADKEY of legal operands (R91, R98). -/

/-- A legal operand word is its byte, zero-extended (R50). -/
theorem elementByte_toNat_of_le {e : StreamWord} (h : e.toNat ≤ 0xFF) :
    (elementByte e).toNat = e.toNat := by
  simp only [elementByte, BitVec.extractLsb'_toNat, Nat.shiftRight_zero]
  omega

theorem operandBytes_getElem {es : List StreamWord} {e : StreamWord} {j : Nat} (hj : j < 16)
    (he : es[j]? = some e) : (operandBytes es)[j] = elementByte e := by
  simp [operandBytes, he]

theorem exec_loadkey_of_legal {es : List StreamWord} (h : LegalOperands es) (s : State) :
    exec (.loadkey es) s = .next (releaseWorking { s with
      keyValid := true
      rk := expandKey (operandBytes es)
      rspStream := s.rspStream ++ [0x0100] }) := by
  have hok : check 0 0 es s.keyValid = .ok :=
    (check_eq_ok_iff _ _ _ _).2 ⟨by decide, h, .inl rfl⟩
  exact (checkedCommand_of_ok hok).trans (runCommand_loadkey _ s)

/-- Settles O28: from either state `RK` becomes the expansion of the operand bytes, whose round key 0 is
those bytes. -/
theorem loadedKeysDependOnTheKeyAlone : Obligations.LoadedKeysDependOnTheKeyAlone := by
  intro es s t hlegal
  refine ⟨_, _, exec_loadkey_of_legal hlegal s, exec_loadkey_of_legal hlegal t, rfl,
    fun j hj e he => ?_⟩
  obtain ⟨-, hbytes⟩ := hlegal
  have hbyte : e.toNat ≤ 0xFF := hbytes e (List.mem_of_getElem? he)
  calc ((expandKey (operandBytes es))[0][j]).toNat
      _ = ((operandBytes es)[j]).toNat := rfl
      _ = e.toNat := by rw [operandBytes_getElem hj he, elementByte_toNat_of_le hbyte]

/-! The words of the expansion (R19, R87, R89). -/

/-- The first word of the next round key. -/
theorem column_nextRoundKey_zero (i : Fin 10) (p : Block) :
    column (nextRoundKey i p) 0 = xorWord (column p 0) (kexpTemp i p) :=
  column_blockOfColumns _ 0

/-- The running XOR chain: each later word takes in the word before it. -/
theorem column_nextRoundKey_succ (i : Fin 10) (p : Block) (c : Fin 3) :
    column (nextRoundKey i p) c.succ =
      xorWord (column p c.succ) (column (nextRoundKey i p) c.castSucc) := by
  unfold nextRoundKey kexpChain
  rw [column_blockOfColumns, column_blockOfColumns]
  fin_cases c <;> rfl

/-- Word `4r + c` of the store is word `c` of round key `r` (R19). -/
theorem keyWordAt_eq_column (rk : RoundKeys) {n r c : Nat} (hn : n < 44) (hc : c < 4)
    (h : n = 4 * r + c) : keyWordAt rk ⟨n, hn⟩ = column (rk[r]'(by omega)) ⟨c, hc⟩ := by
  obtain rfl : r = n / 4 := by omega
  obtain rfl : c = n % 4 := by omega
  rfl

/-- A word that begins a round key after the first: word 0 of a round key made from the one before it. -/
theorem keyWordAt_expandKey_first (key : Block) {n : Nat} (hn : n < 44) (h4 : 4 ≤ n) (hmod : n % 4 = 0) :
    keyWordAt (expandKey key) ⟨n, hn⟩ = xorWord (keyWordAt (expandKey key) ⟨n - 4, by omega⟩)
      (rconStep ⟨n / 4 - 1, by omega⟩
        (subWord (rotWord (keyWordAt (expandKey key) ⟨n - 1, by omega⟩)))) := by
  have hi : n / 4 - 1 < 10 := by omega
  rw [keyWordAt_eq_column (r := n / 4 - 1 + 1) (c := 0) _ hn (by decide) (by omega),
    keyWordAt_eq_column (r := n / 4 - 1) (c := 0) (n := n - 4) _ _ (by decide) (by omega),
    keyWordAt_eq_column (r := n / 4 - 1) (c := 3) (n := n - 1) _ _ (by decide) (by omega),
    expandKey_succ key _ hi]
  exact column_nextRoundKey_zero _ _

/-- A later word of a round key after the first: the next link of the XOR chain. -/
theorem keyWordAt_expandKey_later (key : Block) {n : Nat} (hn : n < 44) (h4 : 4 ≤ n) (hmod : n % 4 ≠ 0) :
    keyWordAt (expandKey key) ⟨n, hn⟩ = xorWord (keyWordAt (expandKey key) ⟨n - 4, by omega⟩)
      (keyWordAt (expandKey key) ⟨n - 1, by omega⟩) := by
  have hi : n / 4 - 1 < 10 := by omega
  have hc : n % 4 - 1 < 3 := by omega
  rw [keyWordAt_eq_column (r := n / 4 - 1 + 1) (c := n % 4 - 1 + 1) _ hn (by omega) (by omega),
    keyWordAt_eq_column (r := n / 4 - 1) (c := n % 4 - 1 + 1) (n := n - 4) _ _ (by omega) (by omega),
    keyWordAt_eq_column (r := n / 4 - 1 + 1) (c := n % 4 - 1) (n := n - 1) _ _ (by omega) (by omega),
    expandKey_succ key _ hi]
  exact column_nextRoundKey_succ _ _ ⟨n % 4 - 1, hc⟩

/-- Settles O51: a word is one of the key's, or the first or a later one of a round key made from the one
before it. -/
theorem expansionFollowsTheWordRecurrence : Obligations.ExpansionFollowsTheWordRecurrence := by
  intro key n hn
  split_ifs with h4 hmod
  · exact keyWordAt_eq_column (r := 0) _ hn h4 (by omega)
  · exact keyWordAt_expandKey_first key hn (by omega) hmod
  · exact keyWordAt_expandKey_later key hn (by omega) hmod

end Sys2Proof.Machine

namespace Sys2Proof.Machine

/-! Illegal command words (R56, R101). -/

theorem cmdOp_toNat (cmd : StreamWord) : (cmdOp cmd).toNat = cmd.toNat % 4 := by
  simp only [cmdOp, BitVec.extractLsb'_toNat, Nat.shiftRight_zero]

theorem cmdRsv_toNat (cmd : StreamWord) : (cmdRsv cmd).toNat = cmd.toNat / 4 % 64 := by
  simp only [cmdRsv, BitVec.extractLsb'_toNat, Nat.shiftRight_eq_div_pow]

/-- CODE is the low byte of a status word and KV the byte above it (R23). -/
theorem statusWord_eq_ofNat (code : StatusCode) (kv : Bool) :
    statusWord code kv = BitVec.ofNat 16 (256 * kv.toNat + (codeNumber code).toNat) := by
  cases kv <;> cases code <;> rfl

/-- A command word with OP = 3 or RSV ≠ 0 makes one of the two illegal instructions. -/
theorem commandOf_of_illegal {cmd : StreamWord} (h : cmdOp cmd = 3 ∨ cmdRsv cmd ≠ 0)
    (es : List StreamWord) :
    commandOf cmd es = .illegalOp3 (cmdRsv cmd) es ∨
      ∃ op, commandOf cmd es = .illegalRsv (cmdRsv cmd) op es := by
  have hrsv {n : Nat} (hop : (cmdOp cmd).toNat = n) (hn : n < 3) : cmdRsv cmd ≠ 0 :=
    h.resolve_left fun h3 => by simp [h3] at hop; omega
  unfold commandOf
  split
  · next hop => exact .inr ⟨0, if_neg (hrsv hop (by decide))⟩
  · next hop => exact .inr ⟨1, if_neg (hrsv hop (by decide))⟩
  · next hop => exact .inr ⟨2, if_neg (hrsv hop (by decide))⟩
  · exact .inl rfl

/-- What an illegal command answers, with the number of its code written out. -/
theorem failCommand_illegalCommand (s : State) :
    failCommand .illegalCommand s =
      { s with rspStream := s.rspStream ++ [BitVec.ofNat 16 (256 * s.keyValid.toNat + 5)] } := by
  rw [failCommand, statusWord_eq_ofNat]
  rfl

theorem exec_illegalOp3 (rsv : BitVec 6) (es : List StreamWord) (s : State) :
    exec (.illegalOp3 rsv es) s = .next (failCommand .illegalCommand s) := rfl

theorem exec_illegalRsv (rsv : BitVec 6) (op : BitVec 2) (es : List StreamWord) (s : State) :
    exec (.illegalRsv rsv op es) s = .next (failCommand .illegalCommand s) := rfl

theorem exec_commandOf_of_illegal {cmd : StreamWord} (h : cmdOp cmd = 3 ∨ cmdRsv cmd ≠ 0)
    (es : List StreamWord) (s : State) :
    exec (commandOf cmd es) s = .next (failCommand .illegalCommand s) := by
  obtain hi | ⟨op, hi⟩ := commandOf_of_illegal h es
  · rw [hi, exec_illegalOp3]
  · rw [hi, exec_illegalRsv]

/-- Settles O19: both illegal instructions fail with code 5, and a word with an illegal field decodes to
one of them, whatever its operand words. -/
theorem illegalWordsAreAnsweredAndIgnored : Obligations.IllegalWordsAreAnsweredAndIgnored := by
  refine ⟨fun rsv es s => ?_, fun rsv op es s => ?_, fun s cmd ws hidle hcmd hlen hillegal => ?_⟩
  · rw [exec_illegalOp3, failCommand_illegalCommand]
  · rw [exec_illegalRsv, failCommand_illegalCommand]
  · have hfields : cmdOp cmd = 3 ∨ cmdRsv cmd ≠ 0 := by
      rw [← BitVec.toNat_inj, ne_eq, ← BitVec.toNat_inj, cmdOp_toNat, cmdRsv_toNat]
      exact hillegal
    have hdecode := decodeCommand_cons_of_le cmd ws (by rwa [cmdLen_toNat])
    rw [← hcmd, cmdLen_toNat] at hdecode
    rw [step_of_decodeCommand hidle hdecode, exec_commandOf_of_illegal hfields,
      failCommand_illegalCommand]

/-! The cipher and its inverse (R93, R95, R97). -/

/-- Adding a round key twice changes nothing (R75). -/
theorem addRoundKey_addRoundKey (s k : Block) : addRoundKey (addRoundKey s k) k = s :=
  Vector.ext fun i hi => by
    rw [addRoundKey_getElem, addRoundKey_getElem, BitVec.xor_assoc, BitVec.xor_self, BitVec.xor_zero]

theorem decryptRound_encryptRound (k s : Block) : decryptRound k (encryptRound k s) = s := by
  rw [decryptRound, encryptRound, addRoundKey_addRoundKey, invMixColumns_mixColumns,
    invShiftRows_shiftRows, invSubBytes_subBytes]

theorem encryptRound_decryptRound (k s : Block) : encryptRound k (decryptRound k s) = s := by
  rw [encryptRound, decryptRound, subBytes_invSubBytes, shiftRows_invShiftRows,
    mixColumns_invMixColumns, addRoundKey_addRoundKey]

theorem decryptBlock_encryptBlock (rk : RoundKeys) (b : Block) :
    decryptBlock rk (encryptBlock rk b) = b := by
  simp only [decryptBlock, encryptBlock, addRoundKey_addRoundKey, invShiftRows_shiftRows,
    invSubBytes_subBytes, decryptRound_encryptRound]

theorem encryptBlock_decryptBlock (rk : RoundKeys) (b : Block) :
    encryptBlock rk (decryptBlock rk b) = b := by
  simp only [decryptBlock, encryptBlock, addRoundKey_addRoundKey, shiftRows_invShiftRows,
    subBytes_invSubBytes, encryptRound_decryptRound]

/-- Settles O34: each round is undone by the step of the other cipher with the same round key, from the
innermost pair outwards. -/
theorem decryptAndEncryptAreInverse : Obligations.DecryptAndEncryptAreInverse :=
  fun rk b => ⟨decryptBlock_encryptBlock rk b, encryptBlock_decryptBlock rk b⟩

/-! What LDST, LDKEY and OUTST do (R92). -/

theorem exec_uopLdst (s : State) : exec .uopLdst s = .next { s with st := s.opnd } := rfl
theorem exec_uopLdkey (s : State) : exec .uopLdkey s = .next { s with rk := s.rk.set 0 s.opnd } := rfl
theorem exec_uopOutst (s : State) :
    exec .uopOutst s = .next (emit (0x0100 :: dataWords s.st) s) := rfl

/-- A DATA word is its byte, zero-extended (R51). -/
theorem dataWord_toNat (b : Byte) : (dataWord b).toNat = b.toNat :=
  BitVec.toNat_setWidth_of_le (by decide)

/-- DATA word `j` of a block is that of its byte `j` (R35). -/
theorem dataWords_getElem? (b : Block) {j : Nat} (hj : j < 16) :
    (dataWords b)[j]? = some (dataWord b[j]) := by
  simp [dataWords, hj]

theorem outst_not_mem_loadkeySchedule : (0x09 : Byte) ∉ loadkeySchedule := by decide

/-- A command that keeps to the orchestrator and has OUTST in its schedule runs with a key loaded: LOADKEY
has none, and the other two run only so (R103). -/
theorem RunKeepsKeys.keyValid_of_outst {q : Sequencer} {s : State} (h : RunKeepsKeys q s)
    (hmem : (0x09 : Byte) ∈ q.sched) : s.keyValid = true := by
  obtain ⟨cmd, sched, upc⟩ := q
  obtain ⟨rfl : sched = schedule cmd, -, hkeys⟩ := h
  cases cmd with
  | loadkey => exact absurd hmem outst_not_mem_loadkeySchedule
  | encrypt => exact hkeys.1
  | decrypt => exact hkeys.1

theorem KeysInv.runKeepsKeys {q : Sequencer} {s : State} (h : KeysInv s) (hq : s.seq = some q) :
    RunKeepsKeys q s := by
  simpa only [KeysInv, hq] using h

/-- Settles O42: each µop writes the one field it is said to, and OUTST is in no schedule that runs
without a key. -/
theorem dataMovementUops : Obligations.DataMovementUops := by
  refine ⟨rfl, rfl, rfl, fun s => ⟨_, exec_uopLdst s, rfl, fun _ _ => rfl⟩,
    fun s => ⟨_, exec_uopLdkey s, rfl, fun j hj => ?_, fun k hk => ?_⟩,
    fun s => ⟨_, dataWords s.st, exec_uopOutst s, rfl, rfl, dataWords_length s.st,
      fun j hj w hw => ?_⟩,
    fun s q hinv hseq hupc => (hinv.runKeepsKeys hseq).keyValid_of_outst (List.mem_of_getElem? hupc)⟩
  · simp only [Vector.getElem_set_self]
  · exact Vector.getElem?_set_ne (by decide) hk.symm
  · rw [dataWords_getElem? s.st hj, Option.some.injEq] at hw
    rw [← hw, dataWord_toNat]

end Sys2Proof.Machine

namespace Sys2Proof.Machine

/-! The order of the checks (R103). -/

/-- The case that the order of R103's checks leaves for a code: every earlier check has passed, and the
code's own check fails. `ok` is left where none fails. -/
def LeftFor (op : BitVec 2) (rsv : BitVec 6) (es : List StreamWord) (kv : Bool) : StatusCode → Prop
  | .illegalCommand => op = 3 ∨ rsv ≠ 0
  | .invalidKeyLength => rsv = 0 ∧ op = 0 ∧ es.length ≠ 16
  | .invalidBlockLength => rsv = 0 ∧ (op = 1 ∨ op = 2) ∧ es.length ≠ 16
  | .invalidByteValue => rsv = 0 ∧ op ≠ 3 ∧ es.length = 16 ∧ ∃ e ∈ es, 0xFF < e.toNat
  | .keyNotLoaded => rsv = 0 ∧ (op = 1 ∨ op = 2) ∧ LegalOperands es ∧ kv = false
  | .ok => rsv = 0 ∧ op ≠ 3 ∧ LegalOperands es ∧ (op = 0 ∨ kv = true)

theorem op_eq_one_or_two_iff : ∀ op : BitVec 2, op = 1 ∨ op = 2 ↔ op ≠ 0 ∧ op ≠ 3 := by decide

theorem legalOperands_of_checks {es : List StreamWord} (hlen : ¬ es.length ≠ 16)
    (hbyte : ¬ es.any (fun e => !legalByte e) = true) : LegalOperands es :=
  ⟨not_not.1 hlen, by simpa [legalByte] using hbyte⟩

/-- The code that `check` gives is one whose case holds. -/
theorem leftFor_check (op : BitVec 2) (rsv : BitVec 6) (es : List StreamWord) (kv : Bool) :
    LeftFor op rsv es kv (check op rsv es kv) := by
  by_cases hillegal : op = 3 ∨ rsv ≠ 0
  · rw [check, if_pos hillegal]
    exact hillegal
  obtain ⟨hop3, hrsv⟩ : op ≠ 3 ∧ rsv = 0 := by tauto
  rw [check, if_neg hillegal]
  split_ifs with hlen hop hbyte hkey
  · exact ⟨hrsv, hop, hlen⟩
  · exact ⟨hrsv, (op_eq_one_or_two_iff op).2 ⟨hop, hop3⟩, hlen⟩
  · exact ⟨hrsv, hop3, not_not.1 hlen, by simpa [legalByte] using hbyte⟩
  · exact ⟨hrsv, (op_eq_one_or_two_iff op).2 ⟨hkey.1, hop3⟩,
      legalOperands_of_checks hlen hbyte, hkey.2⟩
  · exact ⟨hrsv, hop3, legalOperands_of_checks hlen hbyte,
      by simpa [or_iff_not_imp_left] using hkey⟩

/-- In the case left for a code, `check` gives it: the earlier checks pass and its own fails. -/
theorem LeftFor.check_eq {op : BitVec 2} {rsv : BitVec 6} {es : List StreamWord} {kv : Bool}
    {code : StatusCode} (h : LeftFor op rsv es kv code) : check op rsv es kv = code := by
  cases code with
  | illegalCommand => exact if_pos h
  | invalidKeyLength =>
    obtain ⟨hrsv, hop, hlen⟩ := h
    rw [check, if_neg (by simp [hrsv, hop]), if_pos hlen, if_pos hop]
  | invalidBlockLength =>
    obtain ⟨hrsv, hop, hlen⟩ := h
    obtain ⟨hop0, hop3⟩ := (op_eq_one_or_two_iff op).1 hop
    rw [check, if_neg (by tauto), if_pos hlen, if_neg hop0]
  | invalidByteValue =>
    obtain ⟨hrsv, hop3, hlen, hbyte⟩ := h
    rw [check, if_neg (by tauto), if_neg (not_not.2 hlen), if_pos (by simpa [legalByte] using hbyte)]
  | keyNotLoaded =>
    obtain ⟨hrsv, hop, ⟨hlen, hbytes⟩, hkey⟩ := h
    obtain ⟨hop0, hop3⟩ := (op_eq_one_or_two_iff op).1 hop
    rw [check, if_neg (by tauto), if_neg (not_not.2 hlen), if_neg (by simpa [legalByte] using hbytes),
      if_pos ⟨hop0, hkey⟩]
  | ok =>
    obtain ⟨hrsv, hop3, hlegal, hkey⟩ := h
    exact (check_eq_ok_iff op rsv es kv).2 ⟨⟨hop3, hrsv⟩, hlegal, hkey⟩

theorem check_eq_iff (op : BitVec 2) (rsv : BitVec 6) (es : List StreamWord) (kv : Bool)
    (code : StatusCode) : check op rsv es kv = code ↔ LeftFor op rsv es kv code :=
  ⟨fun h => h ▸ leftFor_check op rsv es kv, LeftFor.check_eq⟩

/-- Settles O20: a code is given exactly in the case left for it. -/
theorem firstFailingCheckGivesTheCode : Obligations.FirstFailingCheckGivesTheCode :=
  fun op rsv es kv =>
    have hcode := check_eq_iff op rsv es kv
    ⟨hcode _, hcode _, hcode _, hcode _, hcode _, hcode _⟩

/-! The answer to a failed command (R104). -/

/-- What a failed command answers, with the number of its code written out. -/
theorem failCommand_eq (code : StatusCode) (s : State) :
    failCommand code s = { s with rspStream :=
      s.rspStream ++ [BitVec.ofNat 16 (256 * s.keyValid.toNat + (codeNumber code).toNat)] } := by
  rw [failCommand, statusWord_eq_ofNat]
  rfl

/-- A command word with a legal OP and RSV = 0 makes a command that goes through the checks (R55). -/
theorem exec_commandOf_of_legal {cmd : StreamWord} (hop : cmdOp cmd ≠ 3) (hrsv : cmdRsv cmd = 0)
    (es : List StreamWord) : ∃ c, exec (commandOf cmd es) = checkedCommand c (cmdOp cmd) es := by
  have hcases : cmdOp cmd = 0 ∨ cmdOp cmd = 1 ∨ cmdOp cmd = 2 :=
    or_iff_not_imp_left.2 fun h0 => (op_eq_one_or_two_iff _).2 ⟨h0, hop⟩
  rcases hcases with h | h | h
  · have hcommand : commandOf cmd es = .loadkey es := by simp [commandOf, h, hrsv]
    exact ⟨.loadkey, by rw [hcommand, h]; rfl⟩
  · have hcommand : commandOf cmd es = .encrypt es := by simp [commandOf, h, hrsv]
    exact ⟨.encrypt, by rw [hcommand, h]; rfl⟩
  · have hcommand : commandOf cmd es = .decrypt es := by simp [commandOf, h, hrsv]
    exact ⟨.decrypt, by rw [hcommand, h]; rfl⟩

/-- A command whose check fails answers with the check's code, whatever its word. -/
theorem exec_commandOf_of_check_ne_ok {cmd : StreamWord} {es : List StreamWord} {s : State}
    (h : check (cmdOp cmd) (cmdRsv cmd) es s.keyValid ≠ .ok) :
    exec (commandOf cmd es) s =
      .next (failCommand (check (cmdOp cmd) (cmdRsv cmd) es s.keyValid) s) := by
  by_cases hillegal : cmdOp cmd = 3 ∨ cmdRsv cmd ≠ 0
  · rw [exec_commandOf_of_illegal hillegal, LeftFor.check_eq (code := .illegalCommand) hillegal]
  · obtain ⟨hop, hrsv⟩ : cmdOp cmd ≠ 3 ∧ cmdRsv cmd = 0 := by tauto
    obtain ⟨c, hexec⟩ := exec_commandOf_of_legal hop hrsv es
    rw [hrsv] at h ⊢
    rw [hexec, checkedCommand_of_not_ok h]

/-- Settles O21: the step takes the command's words and runs it, and a failing check leaves only the
answer. -/
theorem failedCommandOnlyAnswers : Obligations.FailedCommandOnlyAnswers := by
  intro s cmd ws hidle hcmd hlen hfail
  have hdecode := decodeCommand_cons_of_le cmd ws (by rwa [cmdLen_toNat])
  rw [← hcmd, cmdLen_toNat] at hdecode
  have hexec := exec_commandOf_of_check_ne_ok
    (s := { s with cmdStream := ws.drop (cmd.toNat / 256) }) hfail
  rw [step_of_decodeCommand hidle hdecode, hexec, failCommand_eq]

end Sys2Proof.Machine

namespace Sys2Proof.Machine

/-! The first command after reset (R118). -/

/-- A command of 16 operand words that a host sends to a core out of reset is taken whole in one step,
and leaves the command stream as empty as reset left it (R53, R55). -/
theorem IsReset.step_hostSend {s : State} (hs : IsReset s) {cmd : StreamWord} {es : List StreamWord}
    (hcmd : (cmdLen cmd).toNat = 16) (hlen : es.length = 16) :
    step (hostSend (cmd :: es) s) = exec (commandOf cmd es) s := by
  obtain ⟨-, hidle, hempty, -⟩ := hs
  have hdecode : decodeCommand (hostSend (cmd :: es) s).cmdStream = .ok (commandOf cmd es, []) := by
    rw [hostSend_cmdStream, hempty, List.nil_append, decodeCommand_cons_of_le _ _ (by omega), hcmd,
      ← hlen, List.take_length, List.drop_length]
  have hsent : Idle (hostSend (cmd :: es) s) := hidle
  rw [step_of_decodeCommand hsent hdecode, ← hempty]
  rfl

/-- Without a key, a command of legal operands that needs one fails with code 4 (R103). -/
theorem IsReset.checkedCommand_of_needs_key {s : State} (hs : IsReset s) {op : BitVec 2}
    (hop : op = 1 ∨ op = 2) {es : List StreamWord} (hes : LegalOperands es) (cmd : Cmd) :
    checkedCommand cmd op es s = .next { s with rspStream := [0x0004] } := by
  obtain ⟨hkey, -, -, hrsp⟩ := hs
  have hcheck : check op 0 es s.keyValid = .keyNotLoaded :=
    LeftFor.check_eq (code := .keyNotLoaded) ⟨rfl, hop, hes, hkey⟩
  rw [checkedCommand_of_not_ok (by rw [hcheck]; decide), hcheck, failCommand_eq, hkey, hrsp]
  rfl

/-- Settles O14: the command is taken whole; the check for a key fails ENCRYPT and DECRYPT, and LOADKEY
needs none. -/
theorem firstCommandAfterReset : Obligations.FirstCommandAfterReset := by
  intro s es hs hes
  obtain ⟨hlen, -⟩ := id hes
  obtain ⟨-, -, hempty, hrsp⟩ := id hs
  refine ⟨?_, ?_, _, (hs.step_hostSend rfl hlen).trans (exec_loadkey_of_legal hes s), rfl, ?_,
    hempty, rfl⟩
  · exact (hs.step_hostSend rfl hlen).trans (hs.checkedCommand_of_needs_key (.inl rfl) hes .encrypt)
  · exact (hs.step_hostSend rfl hlen).trans (hs.checkedCommand_of_needs_key (.inr rfl) hes .decrypt)
  · rw [releaseWorking_rspStream, hrsp, List.nil_append]

/-! What a host can tell apart over many steps (R30, R117). -/

/-- Outcomes that no host can tell apart stay so under a continuation that keeps states so. -/
theorem SameOutcome.andThen {a b : Result} {k : State → Result} (h : SameOutcome a b)
    (hk : ∀ s t, SameVisible s t → SameOutcome (k s) (k t)) :
    SameOutcome (andThen a k) (andThen b k) := by
  cases a with
  | next s =>
    cases b with
    | next t => exact hk s t h
    | fault r => exact h.elim
    | refused r => exact h.elim
  | fault r =>
    cases b with
    | next t => exact h.elim
    | fault r' => exact h
    | refused r' => exact h.elim
  | refused r =>
    cases b with
    | next t => exact h.elim
    | fault r' => exact h.elim
    | refused r' => exact h

/-- The step lemma R30 (O29), packaged for any number of steps. -/
theorem SameVisible.run (n : Nat) : ∀ s t : State, SameVisible s t →
    SameOutcome (Host.Core.run Sys2Proof.core n s) (Host.Core.run Sys2Proof.core n t) := by
  induction n with
  | zero => exact fun _ _ h => h
  | succ n ih =>
    intro s t h
    rw [core_run_succ, core_run_succ]
    exact (hiddenStateCarriesNothing s t h).andThen ih

/-- No host can tell two reset states apart: `KEY_VALID` is 0, so `RK` is not visible (R117). -/
theorem IsReset.sameVisible {s t : State} (hs : IsReset s) (ht : IsReset t) : SameVisible s t := by
  obtain ⟨hkey, hidle, hcmd, hrsp⟩ := hs
  obtain ⟨hkey', hidle', hcmd', hrsp'⟩ := ht
  exact ⟨hidle, hidle', hkey.trans hkey'.symm, by simp [hkey], hcmd.trans hcmd'.symm,
    hrsp.trans hrsp'.symm⟩

theorem SameVisible.hostSend {s t : State} (h : SameVisible s t) (ws : List StreamWord) :
    SameVisible (hostSend ws s) (hostSend ws t) := by
  obtain ⟨hs, ht, hkv, hrk, hcmd, hrsp⟩ := h
  exact ⟨hs, ht, hkv, hrk, congrArg (· ++ ws) hcmd, hrsp⟩

/-- Settles O15: no host can tell the two states apart at reset, after the words are sent, or after any
step. -/
theorem valuesAfterResetAreUnobservable : Obligations.ValuesAfterResetAreUnobservable :=
  fun _ _ ws n hs ht => SameVisible.run n _ _ ((hs.sameVisible ht).hostSend ws)

end Sys2Proof.Machine

namespace Sys2Proof.Machine

/-! The command words (R48 to R56). -/

theorem cmdWord_toNat (len : BitVec 8) (rsv : BitVec 6) (op : BitVec 2) :
    (cmdWord len rsv op).toNat = 256 * len.toNat + 4 * rsv.toNat + op.toNat := by
  simp only [cmdWord, append_toNat]
  omega

/-- A command word is made of its three fields. -/
theorem cmdWord_fields (cmd : StreamWord) : cmdWord (cmdLen cmd) (cmdRsv cmd) (cmdOp cmd) = cmd := by
  apply BitVec.eq_of_toNat_eq
  rw [cmdWord_toNat, cmdLen_toNat, cmdRsv_toNat, cmdOp_toNat]
  omega

/-- Settles O1: the number of a concatenation, and the numbers of its fields. -/
theorem commandWordFieldsArePlaced : Obligations.CommandWordFieldsArePlaced :=
  ⟨cmdWord_toNat, fun w => ⟨cmdLen_toNat w, cmdRsv_toNat w, cmdOp_toNat w⟩⟩

/-- Settles O2, word by word. -/
theorem writtenOutWordsDecode : Obligations.WrittenOutWordsDecode := by
  unfold Obligations.WrittenOutWordsDecode
  decide

theorem lenFits_eq_true_iff (es : List StreamWord) : lenFits es = true ↔ es.length ≤ 255 := by
  simp [lenFits]

/-- The words of a command decode to what its command word and its operand words make (R53, R55). -/
theorem decodeCommand_commandWords (rsv : BitVec 6) (op : BitVec 2) {es : List StreamWord}
    (hes : lenFits es = true) (rest : List StreamWord) :
    decodeCommand (commandWords rsv op es ++ rest) =
      .ok (commandOf (cmdWord (BitVec.ofNat 8 es.length) rsv op) es, rest) := by
  rw [lenFits_eq_true_iff] at hes
  have hlen : (cmdLen (cmdWord (BitVec.ofNat 8 es.length) rsv op)).toNat = es.length := by
    rw [cmdLen_cmdWord, BitVec.toNat_ofNat]
    omega
  rw [commandWords, List.cons_append, decodeCommand_cons_of_le _ _ (by rw [hlen]; simp), hlen,
    List.take_left, List.drop_left]

/-- A command word with a legal OP and RSV ≠ 0 makes the illegal instruction of that OP (R56). -/
theorem commandOf_of_rsv_ne_zero {cmd : StreamWord} (hrsv : cmdRsv cmd ≠ 0) (hop : cmdOp cmd ≠ 3)
    (es : List StreamWord) : commandOf cmd es = .illegalRsv (cmdRsv cmd) (cmdOp cmd) es := by
  unfold commandOf
  generalize cmdOp cmd = op at *
  match op with
  | 0 => exact if_neg hrsv
  | 1 => exact if_neg hrsv
  | 2 => exact if_neg hrsv
  | 3 => exact absurd rfl hop

/-- The encoding of what a command word and LEN operand words make is those words (R48, R54, R56). -/
theorem encode_commandOf {cmd : StreamWord} {es : List StreamWord} (hes : es.length = (cmdLen cmd).toNat) :
    encode (commandOf cmd es) = .command (cmd :: es) := by
  have hfields : commandWords (cmdRsv cmd) (cmdOp cmd) es = cmd :: es := by
    rw [commandWords, hes, BitVec.ofNat_toNat, BitVec.setWidth_eq, cmdWord_fields]
  by_cases hrsv : cmdRsv cmd = 0
  · rw [← hfields, commandOf, hrsv]
    generalize cmdOp cmd = op
    match op with
    | 0 => rfl
    | 1 => rfl
    | 2 => rfl
    | 3 => rfl
  · by_cases hop : cmdOp cmd = 3
    · rw [← hfields, commandOf, hop]
      rfl
    · rw [commandOf_of_rsv_ne_zero hrsv hop, ← hfields]
      rfl

/-- What a command word and LEN operand words make is well-formed. -/
theorem wf_commandOf {cmd : StreamWord} {es : List StreamWord} (hes : es.length = (cmdLen cmd).toNat) :
    (commandOf cmd es).wf = true := by
  have hfits : lenFits es = true := by
    have := (cmdLen cmd).isLt
    rw [lenFits_eq_true_iff]
    omega
  by_cases hrsv : cmdRsv cmd = 0
  · rw [commandOf, hrsv]
    split <;> exact hfits
  · by_cases hop : cmdOp cmd = 3
    · rw [commandOf, hop]
      exact hfits
    · rw [commandOf_of_rsv_ne_zero hrsv hop]
      simpa [Instr.wf, hfits] using ⟨hrsv, hop⟩

/-- What the stream decoder reads is made of a command word and exactly LEN operand words (R53). -/
theorem decodeCommand_eq_ok {ws rest : List StreamWord} {i : Instr} (h : decodeCommand ws = .ok (i, rest)) :
    ∃ cmd es, ws = cmd :: es ++ rest ∧ es.length = (cmdLen cmd).toNat ∧ i = commandOf cmd es := by
  cases ws with
  | nil => simp at h
  | cons cmd ws =>
    rcases Nat.lt_or_ge ws.length (cmdLen cmd).toNat with hl | hl
    · simp [decodeCommand_cons_of_lt _ _ hl] at h
    · rw [decodeCommand_cons_of_le _ _ hl] at h
      obtain ⟨rfl, rfl⟩ : _ = i ∧ _ = rest := by simpa using h
      exact ⟨cmd, ws.take (cmdLen cmd).toNat, by simp, List.length_take_of_le hl, rfl⟩

/-! The µop bytes (R58). -/

theorem uopByte_fields : ∀ u : Byte, uopByte (uopR u) (uopKind u) = u := by decide

theorem decodeUop_reserved : ∀ r kind : BitVec 4, 11 ≤ kind.toNat →
    decodeUop (uopByte r kind) = .ok (.uopReserved r kind) := by decide

/-- Settles O3: a command's words give back its fields and its operand words, a µop's byte its R and its
KIND. -/
theorem decodeOfEncodeIsTheInstruction : Obligations.DecodeOfEncodeIsTheInstruction := by
  intro i hwf
  cases i with
  | loadkey es => exact fun rest => (decodeCommand_commandWords 0 0 hwf rest).trans (by simp [commandOf])
  | encrypt es => exact fun rest => (decodeCommand_commandWords 0 1 hwf rest).trans (by simp [commandOf])
  | decrypt es => exact fun rest => (decodeCommand_commandWords 0 2 hwf rest).trans (by simp [commandOf])
  | illegalOp3 rsv es =>
    exact fun rest => (decodeCommand_commandWords rsv 3 hwf rest).trans (by simp [commandOf])
  | illegalRsv rsv op es =>
    obtain ⟨⟨hrsv, hop⟩, hfits⟩ : (rsv ≠ 0 ∧ op ≠ 3) ∧ lenFits es = true := by
      simpa [Instr.wf] using hwf
    intro rest
    rw [decodeCommand_commandWords rsv op hfits, commandOf_of_rsv_ne_zero (by simpa) (by simpa),
      cmdRsv_cmdWord, cmdOp_cmdWord]
  | uopArk r => exact decodeUop_ark r
  | uopSub => rfl
  | uopIsub => rfl
  | uopSr => rfl
  | uopIsr => rfl
  | uopMc => rfl
  | uopImc => rfl
  | uopKexp r => exact decodeUop_kexp r
  | uopLdst => rfl
  | uopOutst => rfl
  | uopLdkey => rfl
  | uopReserved r kind => exact decodeUop_reserved r kind (by simpa [Instr.wf] using hwf)

/-- The µop decoder reads what encodes to the byte that it read, or rejects. -/
theorem encode_decodeUop : ∀ u : Byte,
    (decodeUop u).map encode = .ok (.uop u) ∨ decodeUop u = .error .uopFieldNotZero := by decide

theorem encode_of_decodeUop {u : Byte} {i : Instr} (h : decodeUop u = .ok i) : encode i = .uop u := by
  simpa [h, Except.map] using encode_decodeUop u

/-- Settles O4: the fields of a command word make it, and those of a µop byte make that. -/
theorem encodeOfDecodeIsTheWords : Obligations.EncodeOfDecodeIsTheWords := by
  refine ⟨fun ws i rest h => ?_, fun u i => encode_of_decodeUop⟩
  obtain ⟨cmd, es, rfl, hes, rfl⟩ := decodeCommand_eq_ok h
  exact ⟨wf_commandOf hes, _, encode_commandOf hes, rfl⟩

/-- Settles O5: the decoder takes LEN words or rejects, and what it takes encodes to itself. -/
theorem commandTakesOnePlusLenWords : Obligations.CommandTakesOnePlusLenWords := by
  intro cmd ws
  rw [← cmdLen_toNat]
  exact ⟨fun h => ⟨_, decodeCommand_cons_of_le cmd ws h, encode_commandOf (List.length_take_of_le h)⟩,
    decodeCommand_cons_of_lt cmd ws⟩

/-! Which µops run (R58, R106). -/

/-- Is it a µop of the table, with an R value given there? -/
def isTableUop : Instr → Bool
  | .uopArk r => decide (r.toNat ≤ 10)
  | .uopKexp r => decide (1 ≤ r.toNat ∧ r.toNat ≤ 10)
  | .uopSub | .uopIsub | .uopSr | .uopIsr | .uopMc | .uopImc | .uopLdst | .uopOutst | .uopLdkey => true
  | .uopReserved _ _ => false
  | .loadkey _ | .encrypt _ | .decrypt _ | .illegalOp3 _ _ | .illegalRsv _ _ _ => false

/-- The sequencer runs the µops of the table in every state, and refuses the rest. -/
theorem execUop_outcome (i : Instr) (s : State) :
    if isTableUop i then ∃ t, execUop i s = .next t else ∃ r, execUop i s = .refused r := by
  cases i with
  | uopArk r =>
    by_cases hr : r.toNat ≤ 10
    · simp [isTableUop, execUop, execUopArk, hr]
    · simp [isTableUop, execUop, execUopArk, hr]
  | uopKexp r =>
    by_cases hr : 1 ≤ r.toNat ∧ r.toNat ≤ 10
    · simp [isTableUop, execUop, execUopKexp, hr]
    · simp [isTableUop, execUop, execUopKexp, hr]
  | uopSub => exact ⟨_, rfl⟩
  | uopIsub => exact ⟨_, rfl⟩
  | uopSr => exact ⟨_, rfl⟩
  | uopIsr => exact ⟨_, rfl⟩
  | uopMc => exact ⟨_, rfl⟩
  | uopImc => exact ⟨_, rfl⟩
  | uopLdst => exact ⟨_, rfl⟩
  | uopOutst => exact ⟨_, rfl⟩
  | uopLdkey => exact ⟨_, rfl⟩
  | uopReserved r kind => exact ⟨_, rfl⟩
  | loadkey es => exact ⟨_, rfl⟩
  | encrypt es => exact ⟨_, rfl⟩
  | decrypt es => exact ⟨_, rfl⟩
  | illegalOp3 rsv es => exact ⟨_, rfl⟩
  | illegalRsv rsv op es => exact ⟨_, rfl⟩

/-- The bytes whose KIND and R the table gives are those that decode to the table's µops. -/
theorem tableByte_iff : ∀ u : Byte,
    (u.toNat % 16 = 0 ∧ u.toNat / 16 ≤ 10) ∨
      (u.toNat % 16 = 7 ∧ 1 ≤ u.toNat / 16 ∧ u.toNat / 16 ≤ 10) ∨
      (u.toNat % 16 ≤ 10 ∧ u.toNat / 16 = 0 ∧ u.toNat % 16 ≠ 7) ↔
    (decodeUop u).toOption.any isTableUop = true := by decide

/-- The sequencer runs a byte that decodes to a µop of the table, and refuses one that decodes to another
or to none. -/
theorem runUop_outcome (u : Byte) (s : State) :
    if (decodeUop u).toOption.any isTableUop then ∃ t, runUop u s = .next t
    else ∃ r, runUop u s = .refused r := by
  cases hd : decodeUop u with
  | error r => exact ⟨_, runUop_of_error hd s⟩
  | ok i =>
    have hexec := execUop_outcome i s
    change if isTableUop i then _ else _
    split
    · next hi =>
      obtain ⟨t, ht⟩ := (if_pos hi).mp hexec
      exact ⟨advanceUpc t, by simp [runUop, hd, ht]⟩
    · next hi =>
      obtain ⟨r, hr⟩ := (if_neg hi).mp hexec
      exact ⟨r, by simp [runUop, hd, hr, andThen]⟩

/-- Settles O6: the table's bytes decode to the table's µops. -/
theorem exactlyTheTablesUopsRun : Obligations.ExactlyTheTablesUopsRun := by
  intro u s
  simpa only [tableByte_iff] using runUop_outcome u s

end Sys2Proof.Machine

namespace Sys2Proof.Machine

/-! What one µop does to the state (R75 to R92). -/

theorem exec_uopArk_of_le {r : BitVec 4} (hr : r.toNat ≤ 10) (s : State) :
    exec (.uopArk r) s = .next { s with st := addRoundKey s.st (s.rk[r.toNat]'(by omega)) } :=
  dif_pos hr

theorem exec_uopArk_of_lt {r : BitVec 4} (hr : 10 < r.toNat) (s : State) :
    exec (.uopArk r) s = .refused .uopIndexOutOfRange :=
  dif_neg (Nat.not_le.2 hr)

theorem exec_uopArk_eq_next {r : BitVec 4} {s t : State} (h : exec (.uopArk r) s = .next t) :
    t = { s with st := t.st } := by
  rcases Nat.lt_or_ge 10 r.toNat with hr | hr
  · simp [exec_uopArk_of_lt hr] at h
  · rw [exec_uopArk_of_le hr] at h
    cases h
    rfl

theorem exec_uopKexp_of_out_of_range {r : BitVec 4} (hr : r.toNat = 0 ∨ 10 < r.toNat) (s : State) :
    exec (.uopKexp r) s = .refused .uopIndexOutOfRange :=
  dif_neg (by omega)

/-- When KEXP answers, it has written `TW` and the round key that its R names. -/
theorem exec_uopKexp_eq_next {r : BitVec 4} {s t : State} (h : exec (.uopKexp r) s = .next t) :
    ∃ tw k, ∃ hr : r.toNat < 11, t = { s with tw := tw, rk := s.rk.set r.toNat k } := by
  by_cases hr : r.toNat = 0 ∨ 10 < r.toNat
  · simp [exec_uopKexp_of_out_of_range hr] at h
  · have hexec : execUopKexp r s = .next t := h
    rw [execUopKexp, dif_pos (by omega)] at hexec
    cases hexec
    exact ⟨_, _, by omega, rfl⟩

/-- The frame of a µop that writes `ST` alone. -/
theorem eq_of_next_st {s t : State} {b : Block}
    (h : (.next { s with st := b } : Result) = .next t) : t = { s with st := t.st } := by
  cases h
  rfl

/-- Settles O44: the record update of each µop names the fields that it writes. -/
theorem uopFrame : Obligations.UopFrame := by
  intro i s t h
  refine ⟨?_, ?_, ?_, ?_⟩
  · rintro (⟨r, rfl⟩ | rfl | rfl | rfl | rfl | rfl | rfl | rfl)
    · exact exec_uopArk_eq_next h
    · exact eq_of_next_st h
    · exact eq_of_next_st h
    · exact eq_of_next_st h
    · exact eq_of_next_st h
    · exact eq_of_next_st h
    · exact eq_of_next_st h
    · exact eq_of_next_st h
  · rintro r rfl
    obtain ⟨tw, k, hr, rfl⟩ := exec_uopKexp_eq_next h
    exact ⟨rfl, fun j hj => Vector.getElem?_set_ne hr hj.symm⟩
  · rintro rfl
    rw [exec_uopLdkey] at h
    cases h
    exact ⟨rfl, fun j hj => Vector.getElem?_set_ne (by decide) hj.symm⟩
  · rintro rfl
    rw [exec_uopOutst] at h
    cases h
    exact ⟨rfl, List.prefix_append _ _⟩

/-- Settles O36: a byte's XOR, which undoes itself. -/
theorem arkAddsTheRoundKey : Obligations.ArkAddsTheRoundKey := by
  intro r s
  have hbyte : ∀ r : BitVec 4, encode (.uopArk r) = .uop (BitVec.ofNat 8 (16 * r.toNat)) := by decide
  refine ⟨hbyte r, fun hr => ⟨_, exec_uopArk_of_le hr s, rfl, fun i hi => ?_, ?_, fun hzero => ?_,
    fun hkey => ?_⟩, fun hr => exec_uopArk_of_lt hr s⟩
  · exact addRoundKey_getElem ..
  · rw [exec_uopArk_of_le hr, addRoundKey_addRoundKey]
  · have hst : addRoundKey s.st (Vector.replicate 16 0) = s.st := Vector.ext fun i hi => by simp
    rw [hzero, hst]
  · exact Vector.ext fun i hi => by simp [hkey]

/-- The words of `nextRoundKey` byte by byte: each the XOR of `P`'s byte with the word before it. -/
theorem nextRoundKey_getElem (i : Fin 10) (p : Block) {b : Nat} (hb : b < 4) :
    (nextRoundKey i p)[b] = p[b] ^^^ (kexpTemp i p)[b] ∧
      ∀ c : Fin 3, (nextRoundKey i p)[4 * (c.val + 1) + b] =
        p[4 * (c.val + 1) + b] ^^^ (nextRoundKey i p)[4 * c.val + b] := by
  refine ⟨?_, fun c => ?_⟩
  · have hword := congrArg (fun w : KeyWord => w[b]) (column_nextRoundKey_zero i p)
    simpa using hword
  · have hword := congrArg (fun w : KeyWord => w[b]) (column_nextRoundKey_succ i p c)
    simpa using hword

/-- Settles O41: `TW` by unfolding R84 to R86, the words of the round key by its XOR chain. -/
theorem kexpComputesTheNextRoundKey : Obligations.KexpComputesTheNextRoundKey := by
  intro r s
  have hbyte : ∀ r : BitVec 4, encode (.uopKexp r) = .uop (BitVec.ofNat 8 (16 * r.toNat + 7)) := by
    decide
  refine ⟨hbyte r, fun hr => ?_, fun hr => exec_uopKexp_of_out_of_range hr s⟩
  obtain ⟨i, hi⟩ : ∃ i, r.toNat = i + 1 := Nat.exists_eq_add_one.2 (by omega)
  have hi10 : i < 10 := by omega
  simp only [hi, Nat.add_sub_cancel]
  refine ⟨_, s.rk[i], nextRoundKey ⟨i, hi10⟩ s.rk[i], exec_uopKexp_of_toNat_eq hi10 hi s, rfl,
    Vector.getElem?_eq_getElem _, Vector.getElem?_set_self (by omega),
    fun j hj => Vector.getElem?_set_ne (by omega) hj.symm, rfl, fun b hb => ?_⟩
  obtain ⟨h0, hsucc⟩ := nextRoundKey_getElem ⟨i, hi10⟩ s.rk[i] hb
  have h1 := hsucc 0
  have h2 := hsucc 1
  have h3 := hsucc 2
  simp only [Fin.isValue, Fin.val_zero, Fin.val_one, Fin.val_two, Nat.reduceAdd, Nat.reduceMul,
    Nat.zero_add] at h1 h2 h3
  refine ⟨h0, h1, h2, h3, ?_⟩
  rw [h3, h2, h1, h0]
  ac_rfl

/-- Settles O43. -/
theorem reservedUopIsRefused : Obligations.ReservedUopIsRefused := fun _ _ _ => rfl

/-! What one step of a running core can do (R27). -/

/-- A byte that runs decodes to a µop, whose effect the advance of `UPC` follows. -/
theorem runUop_eq_next {u : Byte} {s t : State} (h : runUop u s = .next t) :
    ∃ i t', decodeUop u = .ok i ∧ execUop i s = .next t' ∧ t = advanceUpc t' := by
  unfold runUop at h
  split at h
  · next i hd =>
    obtain ⟨t', hexec, ht⟩ := andThen_eq_next h
    cases ht
    exact ⟨i, t', hd, hexec, rfl⟩
  · cases h

/-- What no byte of a schedule touches, and the advance of `UPC`. -/
theorem runUop_frame {u : Byte} {s t : State} (h : runUop u s = .next t) :
    t.seq = s.seq.map (fun q => { q with upc := q.upc + 1 }) ∧ t.cmdStream = s.cmdStream ∧
      t.keyValid = s.keyValid ∧ t.opnd = s.opnd := by
  obtain ⟨i, t', -, hexec, rfl⟩ := runUop_eq_next h
  obtain ⟨hseq, hcmd, hkv, hopnd, -⟩ := execUop_frame hexec
  exact ⟨by rw [advanceUpc_seq, hseq], hcmd, hkv, hopnd⟩

/-- A step of a running core runs the byte at `UPC`, or ends the command past the schedule. -/
theorem sequencerStep_cases (q : Sequencer) (s : State) :
    (∃ u, q.sched[q.upc]? = some u ∧ sequencerStep q s = runUop u s) ∨
    (q.sched.length ≤ q.upc ∧ sequencerStep q s = .next (endCommand q.cmd s)) := by
  unfold sequencerStep
  cases hu : q.sched[q.upc]? with
  | some u => exact .inl ⟨u, rfl, rfl⟩
  | none => exact .inr ⟨List.getElem?_eq_none_iff.1 hu, rfl⟩

theorem step_of_running {s : State} {q : Sequencer} (hq : s.seq = some q) :
    step s = sequencerStep q s := by
  simp only [step, hq]

/-- Settles O7. -/
theorem idleStepRunsTheDecodedCommand : Obligations.IdleStepRunsTheDecodedCommand :=
  fun _ _ _ hs hd => step_of_decodeCommand hs hd

/-- Settles O8: the sequencer's step, with the µop's meaning in `exec` and a `UPC` that no µop touches. -/
theorem runningStepRunsTheDecodedUop : Obligations.RunningStepRunsTheDecodedUop := by
  intro s q hq
  refine ⟨fun u i hu hd => ?_, fun hlen => ?_⟩
  · rw [step_of_running hq, sequencerStep, hu]
    change runUop u s = _
    rw [runUop_of_decode hd, ← execUop_eq_exec hd]
    cases hexec : execUop i s with
    | next t =>
      obtain ⟨hseq, -⟩ := execUop_frame hexec
      rw [andThen_next, andThen_next, advanceUpc, hseq, hq]
      rfl
    | fault r => rfl
    | refused r => rfl
  · rw [step_of_running hq, sequencerStep, List.getElem?_eq_none_iff.2 hlen]

/-- Settles O9: the decoder rejects, and the core waits. -/
theorem stepWaitsForWords : Obligations.StepWaitsForWords := by
  refine fun s hs => ⟨fun hempty => ?_, fun cmd ws hcmd hlen => ?_⟩
  · exact step_of_reject hs (by rw [hempty, decodeCommand_nil])
  · exact step_of_reject hs (by rw [hcmd, decodeCommand_cons_of_lt cmd ws (by rwa [cmdLen_toNat])])

/-- Settles O13. -/
theorem resetLeavesNoKeyAndEmptyStreams : Obligations.ResetLeavesNoKeyAndEmptyStreams :=
  ⟨⟨rfl, rfl, rfl, rfl⟩, fun _ => ⟨rfl, rfl, rfl, rfl⟩⟩

/-! The invariant of the key store (R17, R18, R20). -/

theorem checkedCommand_idle {cmd : Cmd} {op : BitVec 2} {es : List StreamWord} {s t : State}
    (hs : Idle s) (h : checkedCommand cmd op es s = .next t) : Idle t := by
  rcases checkedCommand_eq_next h with ⟨-, hrun⟩ | ⟨-, rfl⟩
  · obtain ⟨u, -, rfl⟩ := runCommand_eq_next hrun
    exact endCommand_seq cmd u
  · exact hs

/-- A step of an idle core leaves no command running, and either leaves `RK` and `KEY_VALID` alone or has
loaded a key. -/
theorem step_keys_of_idle {s t : State} (hs : Idle s) (h : step s = .next t) :
    Idle t ∧ ((t.rk = s.rk ∧ t.keyValid = s.keyValid) ∨
      ((∃ key, t.rk = expandKey key) ∧ t.keyValid = true)) := by
  cases hd : decodeCommand s.cmdStream with
  | error r => simp [step_of_reject hs hd] at h
  | ok p =>
    obtain ⟨i, rest⟩ := p
    rw [step_of_decodeCommand hs hd] at h
    obtain ⟨cmd, op, es, -, -, hexec⟩ | hexec := exec_of_decodeCommand hd
    · rw [hexec] at h
      have ht : Idle t := checkedCommand_idle (s := { s with cmdStream := rest }) hs h
      refine ⟨ht, ?_⟩
      obtain hkeep | ⟨-, -, hrk, hkv, -⟩ := checkedCommand_keys h
      · exact .inl hkeep
      · exact .inr ⟨⟨_, hrk⟩, hkv⟩
    · rw [hexec] at h
      cases h
      exact ⟨hs, .inl ⟨rfl, rfl⟩⟩

theorem endCommand_keyValid_of_true {cmd : Cmd} {s : State} (h : s.keyValid = true) :
    (endCommand cmd s).keyValid = true := by
  cases cmd with
  | loadkey => rfl
  | encrypt => exact h
  | decrypt => exact h

/-- Settles O26: no µop touches `KEY_VALID`, and the end of a command only sets it. -/
theorem noStepClearsKeyValid : Obligations.NoStepClearsKeyValid := by
  intro s t h hkey
  cases hq : s.seq with
  | none =>
    obtain ⟨-, ⟨-, hkv⟩ | ⟨-, hkv⟩⟩ := step_keys_of_idle hq h
    · rw [hkv, hkey]
    · exact hkv
  | some q =>
    rw [step_of_running hq] at h
    rcases sequencerStep_cases q s with ⟨u, -, hrun⟩ | ⟨-, hend⟩
    · obtain ⟨-, -, hkv, -⟩ := runUop_frame (hrun ▸ h)
      rw [hkv, hkey]
    · rw [hend] at h
      cases h
      exact endCommand_keyValid_of_true hkey

/-- Is it one of the two µops that write `RK`? -/
def writesKeys : Instr → Bool
  | .uopKexp _ => true
  | .uopLdkey => true
  | _ => false

theorem execUop_rk {i : Instr} {s t : State} (hi : writesKeys i = false) (h : execUop i s = .next t) :
    t.rk = s.rk := by
  cases i with
  | uopArk r => rw [exec_uopArk_eq_next h]
  | uopKexp r => cases hi
  | uopLdkey => cases hi
  | uopSub => cases h; rfl
  | uopIsub => cases h; rfl
  | uopSr => cases h; rfl
  | uopIsr => cases h; rfl
  | uopMc => cases h; rfl
  | uopImc => cases h; rfl
  | uopLdst => cases h; rfl
  | uopOutst => cases h; rfl
  | uopReserved r kind => cases h
  | loadkey es => cases h
  | encrypt es => cases h
  | decrypt es => cases h
  | illegalOp3 rsv es => cases h
  | illegalRsv rsv op es => cases h

theorem HoldsExpansion.of_eq {s : State} {key : Block} (h : s.rk = expandKey key) : HoldsExpansion s := by
  rw [HoldsExpansion, h]
  rfl

theorem HoldsExpansion.congr {s t : State} (h : HoldsExpansion s) (hrk : t.rk = s.rk) :
    HoldsExpansion t := by
  rwa [HoldsExpansion, hrk]

theorem KeysInv.holdsExpansion {s : State} (h : KeysInv s) (hs : Idle s) (hkey : s.keyValid = true) :
    HoldsExpansion s := by
  unfold Idle at hs
  simp only [KeysInv, hs] at h
  exact h hkey

theorem keysInv_of_idle {s : State} (hs : Idle s) (h : s.keyValid = true → HoldsExpansion s) :
    KeysInv s := by
  unfold Idle at hs
  simpa only [KeysInv, hs] using h

theorem keysInv_of_running {s : State} {q : Sequencer} (hq : s.seq = some q) (h : RunKeepsKeys q s) :
    KeysInv s := by
  simpa only [KeysInv, hq] using h

/-- Settles O31: no key after reset; at a command's begin, LOADKEY has written nothing yet, and the others
find the store as the idle core left it. -/
theorem keyStoreHoldsAtResetAndBegin : Obligations.KeyStoreHoldsAtResetAndBegin := by
  refine ⟨nofun, fun s => nofun, fun cmd bytes s hs hinv hkey => ⟨rfl, Nat.zero_le _, ?_⟩⟩
  cases cmd with
  | loadkey => exact fun j _ hj => absurd hj (Nat.not_lt_zero j)
  | encrypt =>
    have hkey : s.keyValid = true := by simpa using hkey
    exact ⟨hkey, hinv.holdsExpansion hs hkey⟩
  | decrypt =>
    have hkey : s.keyValid = true := by simpa using hkey
    exact ⟨hkey, hinv.holdsExpansion hs hkey⟩

/-- The µop at `UPC` of a LOADKEY writes the round key of that index, after those below it (R90). -/
theorem ExpandedBelow.runUop_loadkey {upc : Nat} {u : Byte} {s t : State}
    (h : ExpandedBelow upc s.opnd s.rk) (hu : loadkeySchedule[upc]? = some u)
    (hrun : runUop u s = .next t) : ExpandedBelow (upc + 1) s.opnd t.rk := by
  rw [loadkeySchedule_eq] at hu
  cases upc with
  | zero =>
    cases hu
    rw [runUop_ldkey] at hrun
    cases hrun
    exact expandedBelow_one _ _
  | succ i =>
    obtain ⟨hi, rfl⟩ : i < 10 ∧ kexpByte i = u := by
      simpa [List.getElem?_eq_some_iff] using hu
    rw [runUop_kexpByte hi] at hrun
    cases hrun
    exact h.set_nextRoundKey hi

theorem writesKeys_of_mem_encryptSchedule :
    ∀ u ∈ encryptSchedule, (decodeUop u).toOption.any writesKeys = false := by decide

theorem writesKeys_of_mem_decryptSchedule :
    ∀ u ∈ decryptSchedule, (decodeUop u).toOption.any writesKeys = false := by decide

theorem runUop_rk {u : Byte} {s t : State} (hu : (decodeUop u).toOption.any writesKeys = false)
    (h : runUop u s = .next t) : t.rk = s.rk := by
  obtain ⟨i, t', hd, hexec, rfl⟩ := runUop_eq_next h
  rw [hd] at hu
  exact (execUop_rk hu hexec : t'.rk = s.rk)

/-- The µop at `UPC` keeps the command to the orchestrator. -/
theorem RunKeepsKeys.next {q : Sequencer} {u : Byte} {s t : State} (h : RunKeepsKeys q s)
    (hu : q.sched[q.upc]? = some u) (hrun : runUop u s = .next t) :
    RunKeepsKeys { q with upc := q.upc + 1 } t := by
  obtain ⟨-, -, hkv, hopnd⟩ := runUop_frame hrun
  obtain ⟨cmd, sched, upc⟩ := q
  obtain ⟨rfl : sched = schedule cmd, -, hkeys⟩ := h
  refine ⟨rfl, (List.getElem?_eq_some_iff.1 hu).1, ?_⟩
  have hmem := List.mem_of_getElem? hu
  cases cmd with
  | loadkey =>
    have hnext := ExpandedBelow.runUop_loadkey hkeys hu hrun
    rwa [← hopnd] at hnext
  | encrypt =>
    obtain ⟨hkey, hexp⟩ := hkeys
    exact ⟨hkv.trans hkey, hexp.congr (runUop_rk (writesKeys_of_mem_encryptSchedule u hmem) hrun)⟩
  | decrypt =>
    obtain ⟨hkey, hexp⟩ := hkeys
    exact ⟨hkv.trans hkey, hexp.congr (runUop_rk (writesKeys_of_mem_decryptSchedule u hmem) hrun)⟩

/-- A command that kept to the orchestrator to its end leaves an expansion in the store. -/
theorem RunKeepsKeys.holdsExpansion {q : Sequencer} {s : State} (h : RunKeepsKeys q s)
    (hend : q.sched.length ≤ q.upc) : HoldsExpansion s := by
  obtain ⟨cmd, sched, upc⟩ := q
  obtain ⟨rfl : sched = schedule cmd, -, hkeys⟩ := h
  cases cmd with
  | loadkey =>
    have hall : ExpandedBelow 11 s.opnd s.rk := fun j hj _ => hkeys j hj (Nat.lt_of_lt_of_le hj hend)
    exact .of_eq hall.eq_expandKey
  | encrypt => exact hkeys.2
  | decrypt => exact hkeys.2

/-- Settles O30: an idle core's step keeps or replaces the whole expansion; a running one's writes the
next round key of a LOADKEY, leaves the store of another command alone, or ends the command. -/
theorem stepKeepsTheKeyStore : Obligations.StepKeepsTheKeyStore := by
  intro s t hinv h
  cases hq : s.seq with
  | none =>
    obtain ⟨ht, ⟨hrk, hkv⟩ | ⟨⟨key, hrk⟩, -⟩⟩ := step_keys_of_idle hq h
    · exact keysInv_of_idle ht fun hkey => (hinv.holdsExpansion hq (hkv ▸ hkey)).congr hrk
    · exact keysInv_of_idle ht fun _ => .of_eq hrk
  | some q =>
    have hrun := hinv.runKeepsKeys hq
    rw [step_of_running hq] at h
    rcases sequencerStep_cases q s with ⟨u, hu, hstep⟩ | ⟨hlen, hstep⟩
    · rw [hstep] at h
      obtain ⟨hseq, -⟩ := runUop_frame h
      rw [hq] at hseq
      exact keysInv_of_running hseq (hrun.next hu h)
    · rw [hstep] at h
      cases h
      exact keysInv_of_idle (endCommand_seq _ _) fun _ =>
        (hrun.holdsExpansion hlen).congr (endCommand_rk _ _)

end Sys2Proof.Machine

namespace Sys2Proof.Machine

/-! The status word (R23, R102). -/

/-- Settles O22, code by code. -/
theorem statusWordFieldsArePlaced : Obligations.StatusWordFieldsArePlaced := by
  intro code kv
  cases kv <;> cases code <;> decide

theorem readStatus_statusWord (code : StatusCode) (kv : Bool) :
    readStatus (statusWord code kv) = some (code, kv) := by
  cases kv <;> cases code <;> rfl

/-- A word whose reserved bits are 0 is its KV bit and its CODE (R23). -/
theorem eq_ofNat_of_reserved_zero {w : StreamWord}
    (h : w.extractLsb' 3 5 = 0 ∧ w.extractLsb' 9 7 = 0) :
    w = BitVec.ofNat 16 (256 * (w.getLsbD 8).toNat + (w.extractLsb' 0 3).toNat) := by
  obtain ⟨hlow, hhigh⟩ := h
  have hlow := congrArg BitVec.toNat hlow
  have hhigh := congrArg BitVec.toNat hhigh
  have hbit : (w.getLsbD 8).toNat = w.toNat / 256 % 2 := Nat.toNat_testBit w.toNat 8
  apply BitVec.eq_of_toNat_eq
  simp only [BitVec.extractLsb'_toNat, Nat.shiftRight_eq_div_pow, BitVec.ofNat_eq_ofNat,
    BitVec.toNat_ofNat, hbit] at hlow hhigh ⊢
  omega

theorem eq_statusWord_of_readStatus {w : StreamWord} {code : StatusCode} {kv : Bool}
    (h : readStatus w = some (code, kv)) : w = statusWord code kv := by
  unfold readStatus at h
  split at h
  · next hreserved =>
    have hcode {n : Nat} {c : StatusCode} (hn : (w.extractLsb' 0 3).toNat = n)
        (hc : (codeNumber c).toNat = n) (hread : some (c, w.getLsbD 8) = some (code, kv)) :
        w = statusWord code kv := by
      cases hread
      rw [statusWord_eq_ofNat, hc, ← hn]
      exact eq_ofNat_of_reserved_zero hreserved
    split at h
    · next hn => exact hcode hn rfl h
    · next hn => exact hcode hn rfl h
    · next hn => exact hcode hn rfl h
    · next hn => exact hcode hn rfl h
    · next hn => exact hcode hn rfl h
    · next hn => exact hcode hn rfl h
    · cases h
  · cases h

/-- Settles O23: a status word reads back, and a word that reads as a status is made of its fields. -/
theorem hostReadsExactlyTheStatusWords : Obligations.HostReadsExactlyTheStatusWords :=
  fun _ code kv => ⟨eq_statusWord_of_readStatus, fun h => h ▸ readStatus_statusWord code kv⟩

/-! The schedules (R90, R94, R96). -/

/-- Settles O33, entry by entry. -/
theorem schedulesFollowTheTables : Obligations.SchedulesFollowTheTables := by
  refine ⟨rfl, rfl, rfl, rfl, fun r h1 h10 => ?_, rfl, rfl, fun r h1 h9 => ?_, rfl, rfl, rfl, rfl, rfl,
    rfl, rfl, rfl, fun r h1 h9 => ?_, rfl, rfl, rfl, rfl⟩
  · interval_cases r <;> rfl
  · interval_cases r <;> exact ⟨rfl, rfl, rfl, rfl⟩
  · interval_cases r <;> exact ⟨rfl, rfl, rfl, rfl⟩

/-! The double-and-add loop as a sum (R62). -/

theorem gmulLoop_eq_foldl (n : Nat) (p x y : Byte) :
    gmulLoop n p x y =
      (List.range n).foldl (fun p i => if y.getLsbD i then p ^^^ xtime^[i] x else p) p := by
  induction n generalizing p x y with
  | zero => rfl
  | succ n ih =>
    simp only [gmulLoop, ih, List.range_succ_eq_map, List.foldl_cons, List.foldl_map,
      BitVec.getLsbD_ushiftRight, Nat.add_comm 1, Function.iterate_succ_apply,
      Function.iterate_zero, id, Nat.succ_eq_add_one]

theorem gmulLoop_zero_right (n : Nat) (p x : Byte) : gmulLoop n p x 0 = p := by
  induction n generalizing x with
  | zero => rfl
  | succ n ih => simpa [gmulLoop] using ih (xtime x)

/-- A longer loop goes on from where a shorter one stops. -/
theorem gmulLoop_add (m n : Nat) (p x y : Byte) :
    gmulLoop (m + n) p x y = gmulLoop n (gmulLoop m p x y) (xtime^[m] x) (y >>> m) := by
  induction m generalizing p x y with
  | zero => simp [gmulLoop]
  | succ m ih =>
    rw [Nat.add_right_comm, gmulLoop, ih, gmulLoop, Function.iterate_succ_apply, Nat.add_comm m 1,
      BitVec.shiftRight_add]

/-- Settles O46: after eight passes no bit of `b` is left. -/
theorem gmulAddsTheDoublings : Obligations.GmulAddsTheDoublings := by
  refine fun a b => ⟨gmulLoop_eq_foldl 8 0 a b, fun n hn => ?_⟩
  obtain ⟨k, rfl⟩ := Nat.exists_eq_add_of_le hn
  have hshift : b >>> 8 = 0 := BitVec.ushiftRight_eq_zero (by decide)
  rw [gmulLoop_add, hshift, gmulLoop_zero_right]
  rfl

/-! What a command answers (R98 to R104). -/

/-- A command whose check fails, with the case of its code. -/
theorem checkedCommand_of_leftFor {op : BitVec 2} {es : List StreamWord} {s : State} {code : StatusCode}
    (h : LeftFor op 0 es s.keyValid code) (hcode : code ≠ .ok) (cmd : Cmd) :
    checkedCommand cmd op es s = .next { s with rspStream :=
      s.rspStream ++ [BitVec.ofNat 16 (256 * s.keyValid.toNat + (codeNumber code).toNat)] } := by
  have hcheck := h.check_eq
  rw [checkedCommand_of_not_ok (by rwa [hcheck]), hcheck, failCommand_eq]

/-- The words of a command of 16 operand words. -/
theorem commandWords_of_legal {es : List StreamWord} (h : LegalOperands es) (op : BitVec 2) :
    commandWords 0 op es = cmdWord 16 0 op :: es := by
  obtain ⟨hlen, -⟩ := h
  rw [commandWords, hlen]
  rfl

theorem exec_illegalRsv_answer (rsv : BitVec 6) (op : BitVec 2) (es : List StreamWord) (s : State) :
    exec (.illegalRsv rsv op es) s = .next { s with rspStream :=
      s.rspStream ++ [BitVec.ofNat 16 (256 * s.keyValid.toNat + 5)] } := by
  rw [exec_illegalRsv, failCommand_illegalCommand]

/-- Settles O16: the checks in their order, and the run of a LOADKEY that passes them. -/
theorem loadkeyExpandsTheKeyOrAnswersTheError : Obligations.LoadkeyExpandsTheKeyOrAnswersTheError := by
  refine fun es s => ⟨fun hes => congrArg Code.command (commandWords_of_legal hes 0),
    fun hes => exec_loadkey_of_legal hes s, fun hlen => ?_, fun hlen hbyte => ?_,
    fun rsv => exec_illegalRsv_answer rsv 0 es s⟩
  · exact checkedCommand_of_leftFor (code := .invalidKeyLength) ⟨rfl, rfl, hlen⟩ (by decide) _
  · exact checkedCommand_of_leftFor (code := .invalidByteValue) ⟨rfl, by decide, hlen, hbyte⟩ (by decide) _

/-- The three errors of a command that has a block and needs a key (R99, R100). -/
theorem blockCommand_errors {op : BitVec 2} (hop : op = 1 ∨ op = 2) (cmd : Cmd) (es : List StreamWord)
    (s : State) :
    (es.length ≠ 16 → checkedCommand cmd op es s =
      .next { s with rspStream := s.rspStream ++ [BitVec.ofNat 16 (256 * s.keyValid.toNat + 2)] }) ∧
    (es.length = 16 → (∃ e ∈ es, 0xFF < e.toNat) → checkedCommand cmd op es s =
      .next { s with rspStream := s.rspStream ++ [BitVec.ofNat 16 (256 * s.keyValid.toNat + 3)] }) ∧
    (LegalOperands es → s.keyValid = false → checkedCommand cmd op es s =
      .next { s with rspStream := s.rspStream ++ [0x0004] }) := by
  obtain ⟨-, hop3⟩ := (op_eq_one_or_two_iff op).1 hop
  refine ⟨fun hlen => ?_, fun hlen hbyte => ?_, fun hes hkey => ?_⟩
  · exact checkedCommand_of_leftFor (code := .invalidBlockLength) ⟨rfl, hop, hlen⟩ (by decide) _
  · exact checkedCommand_of_leftFor (code := .invalidByteValue) ⟨rfl, hop3, hlen, hbyte⟩ (by decide) _
  · rw [checkedCommand_of_leftFor (code := .keyNotLoaded) ⟨rfl, hop, hes, hkey⟩ (by decide), hkey]
    rfl

theorem exec_encrypt_of_legal {es : List StreamWord} {s : State} (hes : LegalOperands es)
    (hkey : s.keyValid = true) :
    exec (.encrypt es) s = .next (releaseWorking
      { s with rspStream := s.rspStream ++ 0x0100 :: dataWords (encryptBlock s.rk (operandBytes es)) }) := by
  have hok : check 1 0 es s.keyValid = .ok := (check_eq_ok_iff _ _ _ _).2 ⟨by decide, hes, .inr hkey⟩
  exact (checkedCommand_of_ok hok).trans (runCommand_encrypt _ s)

theorem exec_decrypt_of_legal {es : List StreamWord} {s : State} (hes : LegalOperands es)
    (hkey : s.keyValid = true) :
    exec (.decrypt es) s = .next (releaseWorking
      { s with rspStream := s.rspStream ++ 0x0100 :: dataWords (decryptBlock s.rk (operandBytes es)) }) := by
  have hok : check 2 0 es s.keyValid = .ok := (check_eq_ok_iff _ _ _ _).2 ⟨by decide, hes, .inr hkey⟩
  exact (checkedCommand_of_ok hok).trans (runCommand_decrypt _ s)

/-- Settles O17: the checks in their order, and the run of an ENCRYPT that passes them. -/
theorem encryptAnswersTheCiphertextOrTheError : Obligations.EncryptAnswersTheCiphertextOrTheError := by
  intro es s
  obtain ⟨hlen, hbyte, hnokey⟩ := blockCommand_errors (op := 1) (.inl rfl) .encrypt es s
  exact ⟨fun hes => congrArg Code.command (commandWords_of_legal hes 1), exec_encrypt_of_legal, hlen,
    hbyte, hnokey, fun rsv => exec_illegalRsv_answer rsv 1 es s⟩

/-- Settles O18: the checks in their order, and the run of a DECRYPT that passes them. -/
theorem decryptAnswersThePlaintextOrTheError : Obligations.DecryptAnswersThePlaintextOrTheError := by
  intro es s
  obtain ⟨hlen, hbyte, hnokey⟩ := blockCommand_errors (op := 2) (.inr rfl) .decrypt es s
  exact ⟨fun hes => congrArg Code.command (commandWords_of_legal hes 2), exec_decrypt_of_legal, hlen,
    hbyte, hnokey, fun rsv => exec_illegalRsv_answer rsv 2 es s⟩

/-! What every command does (R38, R104). -/

/-- ENCRYPT and DECRYPT differ in the function of `RK` and the block that they answer. -/
theorem runCommand_of_ne_loadkey {cmd : Cmd} (hcmd : cmd ≠ .loadkey) :
    ∃ f : RoundKeys → Block → Block, ∀ (bytes : Block) (s : State), runCommand cmd bytes s =
      .next (releaseWorking
        { s with rspStream := s.rspStream ++ 0x0100 :: dataWords (f s.rk bytes) }) := by
  cases cmd with
  | loadkey => exact absurd rfl hcmd
  | encrypt => exact ⟨encryptBlock, runCommand_encrypt⟩
  | decrypt => exact ⟨decryptBlock, runCommand_decrypt⟩

/-- What a host reads of a command that took the core from `s` to `t`: a status word with the new
`KEY_VALID`, and after the code OK perhaps a block (R38, R98 to R104). -/
def Answers (s t : State) : Prop :=
  ∃ code data, t.rspStream = s.rspStream ++ statusWord code t.keyValid :: data ∧
    (data = [] ∨ (code = .ok ∧ data.length = 16 ∧ ∀ w ∈ data, w.toNat ≤ 0xFF))

theorem Answers.rspStream_extends {s t : State} (h : Answers s t) : s.rspStream <+: t.rspStream := by
  obtain ⟨code, data, hrsp, -⟩ := h
  exact ⟨_, hrsp.symm⟩

theorem failCommand_answers (code : StatusCode) (s : State) : Answers s (failCommand code s) :=
  ⟨code, [], rfl, .inl rfl⟩

theorem toNat_le_of_mem_dataWords {b : Block} {w : StreamWord} (h : w ∈ dataWords b) :
    w.toNat ≤ 0xFF := by
  obtain ⟨x, -, rfl⟩ := List.mem_map.1 h
  have := x.isLt
  rw [dataWord_toNat]
  omega

theorem legalOperands_dataWords (b : Block) : LegalOperands (dataWords b) :=
  ⟨dataWords_length b, fun _ => toNat_le_of_mem_dataWords⟩

/-- A command that passes its checks ends, and answers with the code OK. -/
theorem runCommand_answers {cmd : Cmd} {s : State} (hkey : cmd = .loadkey ∨ s.keyValid = true)
    (bytes : Block) :
    ∃ t, runCommand cmd bytes s = .next t ∧ Idle t ∧ t.cmdStream = s.cmdStream ∧ Answers s t := by
  by_cases hcmd : cmd = .loadkey
  · subst hcmd
    refine ⟨_, runCommand_loadkey bytes s, rfl, rfl, .ok, [], ?_, .inl rfl⟩
    rw [releaseWorking_rspStream, releaseWorking_keyValid, statusWord_ok_true]
  · obtain ⟨f, hrun⟩ := runCommand_of_ne_loadkey hcmd
    refine ⟨_, hrun bytes s, rfl, rfl, .ok, dataWords (f s.rk bytes), ?_,
      .inr ⟨rfl, legalOperands_dataWords _⟩⟩
    rw [releaseWorking_rspStream, releaseWorking_keyValid, hkey.resolve_left hcmd, statusWord_ok_true]

/-- A command that goes through the checks ends and answers; `hop` says that LOADKEY alone needs no
key. -/
theorem checkedCommand_answers {cmd : Cmd} {op : BitVec 2} (hop : op = 0 → cmd = .loadkey)
    (es : List StreamWord) (s : State) :
    ∃ t, checkedCommand cmd op es s = .next t ∧ (Idle s → Idle t) ∧ t.cmdStream = s.cmdStream ∧
      Answers s t ∧ (check op 0 es s.keyValid ≠ .ok → t = { s with rspStream := t.rspStream }) := by
  by_cases hok : check op 0 es s.keyValid = .ok
  · obtain ⟨-, -, hkey⟩ := (check_eq_ok_iff _ _ _ _).1 hok
    obtain ⟨t, hrun, hidle, hcmd, hanswers⟩ := runCommand_answers (hkey.imp_left hop) (operandBytes es)
    exact ⟨t, (checkedCommand_of_ok hok).trans hrun, fun _ => hidle, hcmd, hanswers,
      fun h => absurd hok h⟩
  · exact ⟨_, checkedCommand_of_not_ok hok, id, rfl, failCommand_answers _ s, fun _ => rfl⟩

/-- Settles O10: the step takes the words, and the command they make answers. -/
theorem arrivedCommandCompletesAtomically : Obligations.ArrivedCommandCompletesAtomically := by
  intro s cmd ws hidle hcmd hlen
  have hd := decodeCommand_cons_of_le cmd ws (by rwa [cmdLen_toNat])
  rw [← hcmd, cmdLen_toNat] at hd
  rw [step_of_decodeCommand hidle hd]
  obtain ⟨c, op, es, -, hop, hexec⟩ | hexec := exec_of_decodeCommand hd
  · obtain ⟨t, ht, hidle', hstream, ⟨code, data, hrsp, hdata⟩, -⟩ := checkedCommand_answers hop es
      { s with cmdStream := ws.drop (cmd.toNat / 256) }
    exact ⟨t, code, data, by rw [hexec, ht], hidle' hidle, hstream, hrsp, hdata⟩
  · refine ⟨failCommand .illegalCommand { s with cmdStream := ws.drop (cmd.toNat / 256) },
      .illegalCommand, [], by rw [hexec], hidle, rfl, rfl, .inl rfl⟩

/-- The frame of a command that goes through the checks. -/
theorem checkedCommand_frame {cmd : Cmd} {op : BitVec 2} (hop : op = 0 → cmd = .loadkey)
    {es : List StreamWord} {s t : State} (h : checkedCommand cmd op es s = .next t) :
    t.cmdStream = s.cmdStream ∧ s.rspStream <+: t.rspStream ∧
      (check op 0 es s.keyValid ≠ .ok → t = { s with rspStream := t.rspStream }) := by
  obtain ⟨t', ht', -, hcmd, hanswers, hfail⟩ := checkedCommand_answers hop es s
  obtain rfl : t' = t := Host.Outcome.next.inj (ht'.symm.trans h)
  exact ⟨hcmd, hanswers.rspStream_extends, hfail⟩

/-- The frame of ENCRYPT and DECRYPT: the keys stay (R20), and without legal operands or a key everything
but the response stream. -/
theorem blockCommand_frame {cmd : Cmd} {op : BitVec 2} (hcmd : cmd ≠ .loadkey) (hop : op ≠ 0)
    {es : List StreamWord} {s t : State} (h : checkedCommand cmd op es s = .next t) :
    t.cmdStream = s.cmdStream ∧ s.rspStream <+: t.rspStream ∧ t.rk = s.rk ∧ t.keyValid = s.keyValid ∧
      (¬ LegalOperands es ∨ s.keyValid = false → t = { s with rspStream := t.rspStream }) := by
  obtain ⟨hstream, hextends, hfail⟩ := checkedCommand_frame (absurd · hop) h
  obtain ⟨hrk, hkv⟩ | ⟨hload, -⟩ := checkedCommand_keys h
  · refine ⟨hstream, hextends, hrk, hkv, fun hbad => hfail fun hok => ?_⟩
    obtain ⟨-, hes, hkey⟩ := (check_eq_ok_iff _ _ _ _).1 hok
    have hkey := hkey.resolve_left hop
    simp [hes, hkey] at hbad
  · exact absurd hload hcmd

/-- Settles O24: a failing check leaves only the answer, and a run ends with the fields it names. -/
theorem commandFrame : Obligations.CommandFrame := by
  refine fun es s t => ⟨fun h => ?_, ?_, ?_⟩
  · obtain ⟨hstream, hextends, hfail⟩ := checkedCommand_frame (fun _ => rfl) h
    refine ⟨hstream, hextends, fun hbad => hfail fun hok => ?_⟩
    obtain ⟨-, hes, -⟩ := (check_eq_ok_iff _ _ _ _).1 hok
    exact hbad hes
  · rintro i (rfl | rfl) h
    · exact blockCommand_frame (cmd := .encrypt) (op := 1) (by decide) (by decide) h
    · exact blockCommand_frame (cmd := .decrypt) (op := 2) (by decide) (by decide) h
  · rintro rsv op i (rfl | rfl) h
    · rw [exec_illegalOp3] at h
      cases h
      exact ⟨(failCommand_answers _ s).rspStream_extends, rfl⟩
    · rw [exec_illegalRsv] at h
      cases h
      exact ⟨(failCommand_answers _ s).rspStream_extends, rfl⟩

/-- The response of a command that passes its checks or not, where `f` gives the block that it answers. -/
def blockResponse (f : RoundKeys → Block → Block) (op : BitVec 2) (es : List StreamWord) (rk : RoundKeys)
    (kv : Bool) : List StreamWord :=
  if check op 0 es kv = .ok then 0x0100 :: dataWords (f rk (operandBytes es))
  else [statusWord (check op 0 es kv) kv]

/-- What ENCRYPT or DECRYPT answers depends on `RK` and `KEY_VALID` alone, and it keeps both (R39). -/
theorem blockCommand_response {cmd : Cmd} (hcmd : cmd ≠ .loadkey) (op : BitVec 2)
    (es : List StreamWord) :
    ∃ f, ∀ s : State, ∃ t, checkedCommand cmd op es s = .next t ∧
      t.rspStream = s.rspStream ++ blockResponse f op es s.rk s.keyValid ∧
      t.rk = s.rk ∧ t.keyValid = s.keyValid := by
  obtain ⟨f, hrun⟩ := runCommand_of_ne_loadkey hcmd
  refine ⟨f, fun s => ?_⟩
  unfold blockResponse
  split
  · next hok => exact ⟨_, (checkedCommand_of_ok hok).trans (hrun _ s), rfl, rfl, rfl⟩
  · next hfail => exact ⟨_, checkedCommand_of_not_ok hfail, rfl, rfl, rfl⟩

theorem blockCommand_repeats {cmd : Cmd} (hcmd : cmd ≠ .loadkey) (op : BitVec 2) (es : List StreamWord)
    (s : State) :
    ∃ resp t u, checkedCommand cmd op es s = .next t ∧ checkedCommand cmd op es t = .next u ∧
      t.rspStream = s.rspStream ++ resp ∧ u.rspStream = t.rspStream ++ resp ∧
      t.rk = s.rk ∧ t.keyValid = s.keyValid := by
  obtain ⟨f, hresp⟩ := blockCommand_response hcmd op es
  obtain ⟨t, ht, htrsp, hrk, hkv⟩ := hresp s
  obtain ⟨u, hu, hursp, -, -⟩ := hresp t
  rw [hrk, hkv] at hursp
  exact ⟨_, t, u, ht, hu, htrsp, hursp, hrk, hkv⟩

/-- Settles O27: the response is a function of what the command keeps. -/
theorem repeatedCommandRepeatsItsResponse : Obligations.RepeatedCommandRepeatsItsResponse := by
  rintro es s i (rfl | rfl)
  · exact blockCommand_repeats (cmd := .encrypt) (by decide) 1 es s
  · exact blockCommand_repeats (cmd := .decrypt) (by decide) 2 es s

end Sys2Proof.Machine

namespace Sys2Proof.Machine

/-! The host's ports commute with a step (R33, R42). -/

/-- `s` with `pre` unread before its responses and `post` sent after its commands. -/
def widenStreams (pre post : List StreamWord) (s : State) : State :=
  { s with rspStream := pre ++ s.rspStream, cmdStream := s.cmdStream ++ post }

/-- An outcome with the streams of its next state widened. -/
def widenOutcome (pre post : List StreamWord) (o : Result) : Result :=
  andThen o fun t => .next (widenStreams pre post t)

theorem hostSend_eq_widenStreams (ws : List StreamWord) (s : State) :
    hostSend ws s = widenStreams [] ws s := rfl

theorem hostRead_eq_some_iff {s s' : State} {w : StreamWord} :
    hostRead s = some (w, s') ↔ s = widenStreams [w] [] s' := by
  obtain ⟨kv, rk, st, tw, opnd, seq, cmd, rsp, free⟩ := s
  cases rsp with
  | nil => simp [hostRead, widenStreams]
  | cons v vs =>
    obtain ⟨kv', rk', st', tw', opnd', seq', cmd', rsp', free'⟩ := s'
    simp [hostRead, widenStreams]
    tauto

theorem failCommand_widenStreams (pre post : List StreamWord) (code : StatusCode) (s : State) :
    failCommand code (widenStreams pre post s) = widenStreams pre post (failCommand code s) := by
  simp [failCommand, emit, widenStreams]

theorem runCommand_widenStreams (pre post : List StreamWord) (cmd : Cmd) (bytes : Block) (s : State) :
    runCommand cmd bytes (widenStreams pre post s) = widenOutcome pre post (runCommand cmd bytes s) := by
  by_cases hcmd : cmd = .loadkey
  · subst hcmd
    rw [runCommand_loadkey, runCommand_loadkey]
    simp [widenOutcome, widenStreams, releaseWorking]
  · obtain ⟨f, hrun⟩ := runCommand_of_ne_loadkey hcmd
    rw [hrun, hrun]
    simp [widenOutcome, widenStreams, releaseWorking]

theorem checkedCommand_widenStreams (pre post : List StreamWord) (cmd : Cmd) (op : BitVec 2)
    (es : List StreamWord) (s : State) :
    checkedCommand cmd op es (widenStreams pre post s) =
      widenOutcome pre post (checkedCommand cmd op es s) := by
  by_cases hok : check op 0 es s.keyValid = .ok
  · have hok' : check op 0 es (widenStreams pre post s).keyValid = .ok := hok
    rw [checkedCommand_of_ok hok, checkedCommand_of_ok hok', runCommand_widenStreams]
  · have hok' : check op 0 es (widenStreams pre post s).keyValid ≠ .ok := hok
    rw [checkedCommand_of_not_ok hok, checkedCommand_of_not_ok hok', failCommand_widenStreams]
    rfl

theorem execUop_widenStreams (pre post : List StreamWord) (i : Instr) (s : State) :
    execUop i (widenStreams pre post s) = widenOutcome pre post (execUop i s) := by
  cases i with
  | uopArk r =>
    simp only [execUop, execUopArk]
    split <;> rfl
  | uopKexp r =>
    simp only [execUop, execUopKexp]
    split <;> rfl
  | uopOutst => simp [execUop, execUopOutst, emit, widenOutcome, widenStreams]
  | uopSub => rfl
  | uopIsub => rfl
  | uopSr => rfl
  | uopIsr => rfl
  | uopMc => rfl
  | uopImc => rfl
  | uopLdst => rfl
  | uopLdkey => rfl
  | uopReserved r kind => rfl
  | loadkey es => rfl
  | encrypt es => rfl
  | decrypt es => rfl
  | illegalOp3 rsv es => rfl
  | illegalRsv rsv op es => rfl

theorem runUop_widenStreams (pre post : List StreamWord) (u : Byte) (s : State) :
    runUop u (widenStreams pre post s) = widenOutcome pre post (runUop u s) := by
  unfold runUop
  split
  · next i hd =>
    rw [execUop_widenStreams]
    cases execUop i s <;> rfl
  · rfl

theorem endCommand_widenStreams (pre post : List StreamWord) (cmd : Cmd) (s : State) :
    endCommand cmd (widenStreams pre post s) = widenStreams pre post (endCommand cmd s) := by
  cases cmd with
  | loadkey => simp [endCommand, widenStreams, releaseWorking, emit]
  | encrypt => rfl
  | decrypt => rfl

theorem sequencerStep_widenStreams (pre post : List StreamWord) (q : Sequencer) (s : State) :
    sequencerStep q (widenStreams pre post s) = widenOutcome pre post (sequencerStep q s) := by
  unfold sequencerStep
  split
  · exact runUop_widenStreams ..
  · rw [endCommand_widenStreams]
    rfl

/-- Words after a whole command change nothing of its decoding. -/
theorem decodeCommand_append {ws rest : List StreamWord} {i : Instr}
    (h : decodeCommand ws = .ok (i, rest)) (post : List StreamWord) :
    decodeCommand (ws ++ post) = .ok (i, rest ++ post) := by
  obtain ⟨cmd, es, rfl, hes, rfl⟩ := decodeCommand_eq_ok h
  rw [List.append_assoc, List.cons_append, decodeCommand_cons_of_le _ _ (by simp [hes]), ← hes,
    List.take_left, List.drop_left]

/-- A step commutes with widening the streams; with words sent later, where it does not wait. -/
theorem step_widenStreams (pre post : List StreamWord) (s : State)
    (h : post = [] ∨ ∃ t, step s = .next t) :
    step (widenStreams pre post s) = widenOutcome pre post (step s) := by
  cases hq : s.seq with
  | some q =>
    rw [step_of_running hq, step_of_running (show (widenStreams pre post s).seq = some q from hq)]
    exact sequencerStep_widenStreams ..
  | none =>
    have hidle : Idle s := hq
    have hidle' : Idle (widenStreams pre post s) := hq
    cases hd : decodeCommand s.cmdStream with
    | error r =>
      have hstep := step_of_reject hidle hd
      obtain rfl | ⟨t, ht⟩ := h
      · rw [hstep, step_of_reject hidle' (by rwa [widenStreams, List.append_nil])]
        rfl
      · simp [hstep] at ht
    | ok p =>
      obtain ⟨i, rest⟩ := p
      rw [step_of_decodeCommand hidle hd, step_of_decodeCommand hidle' (decodeCommand_append hd post)]
      obtain ⟨cmd, op, es, -, -, hexec⟩ | hexec := exec_of_decodeCommand hd
      · rw [hexec]
        exact checkedCommand_widenStreams pre post cmd op es { s with cmdStream := rest }
      · rw [hexec]
        exact congrArg _ (failCommand_widenStreams pre post _ { s with cmdStream := rest })

/-- Settles O11: what a host sends and what it reads widen the streams. -/
theorem hostPortsCommuteWithSteps : Obligations.HostPortsCommuteWithSteps := by
  refine fun s t h => ⟨fun ws => ?_, fun w s' hread => ?_⟩
  · rw [hostSend_eq_widenStreams, step_widenStreams [] ws s (.inr ⟨t, h⟩), h]
    rfl
  · obtain rfl := hostRead_eq_some_iff.1 hread
    rw [step_widenStreams [w] [] s' (.inl rfl)] at h
    obtain ⟨t', ht', ht⟩ := andThen_eq_next h
    exact ⟨t', ht', hostRead_eq_some_iff.2 (Host.Outcome.next.inj ht).symm⟩

/-! The model's interface of table words. -/

/-- The words of a table word are a command word and its LEN operand words. -/
theorem tableWords_eq_cons (w : Nat) :
    ∃ cmd es, tableWords w = cmd :: es ∧ es.length = (cmdLen cmd).toNat := by
  rw [tableWords, Nat.add_comm, List.range_succ_eq_map, List.map_cons]
  exact ⟨_, _, rfl, by simp⟩

/-- What the decoder reads from a table word leaves just the words that follow. -/
theorem decodeCommand_tableWords {w : Nat} {i : Instr} {rest : List StreamWord}
    (h : decodeCommand (tableWords w) = .ok (i, rest)) (ws : List StreamWord) :
    decodeCommand (tableWords w ++ ws) = .ok (i, ws) := by
  obtain ⟨cmd, es, hwords, hes⟩ := tableWords_eq_cons w
  rw [hwords, decodeCommand_cons_of_le _ _ hes.ge, ← hes, List.take_length] at h
  obtain ⟨rfl, -⟩ := Prod.mk.inj (Except.ok.inj h)
  rw [hwords, List.cons_append, decodeCommand_cons_of_le _ _ (by simp [hes]), ← hes, List.take_left,
    List.drop_left]

/-- Settles O12: the command's words, or the one-µop schedule, stand where the step finds them. -/
theorem fetchWordRunsTheTableInstruction : Obligations.FetchWordRunsTheTableInstruction := by
  intro s nbits w i h
  unfold decodeTableWord at h
  refine ⟨fun hn => ?_, fun hn => ?_⟩
  · rw [if_neg (by omega)] at h
    cases hd : decodeCommand (tableWords (w % 2 ^ nbits)) with
    | error r => simp [hd] at h
    | ok p =>
      obtain ⟨j, rest⟩ := p
      obtain rfl : j = i := by simpa [hd] using h
      rw [State.withFetchWord, if_neg (by omega)]
      exact step_of_decodeCommand (by rfl) (decodeCommand_tableWords hd s.cmdStream)
  · rw [if_pos hn] at h
    cases hd : decodeUop (BitVec.ofNat 8 (w % 2 ^ nbits)) with
    | error r => simp [hd] at h
    | ok j =>
      obtain rfl : j = i := by simpa [hd] using h
      rw [State.withFetchWord, if_pos hn]
      exact runUop_of_decode hd _

/-! A command µop by µop (R27). -/

theorem core_run_of_step {s t : State} (h : step s = .next t) (k : Nat) :
    Host.Core.run Sys2Proof.core (k + 1) s = Host.Core.run Sys2Proof.core k t := by
  rw [core_run_succ, h]
  rfl

/-- One step more than `k` is a step of the state after `k` steps. -/
theorem core_run_succ_of_run {k : Nat} {s t : State} (h : Host.Core.run Sys2Proof.core k s = .next t) :
    Host.Core.run Sys2Proof.core (k + 1) s = step t := by
  induction k generalizing s with
  | zero =>
    obtain rfl : s = t := Host.Outcome.next.inj h
    rw [core_run_succ]
    cases step s <;> rfl
  | succ k ih =>
    rw [core_run_succ] at h
    obtain ⟨v, hv, hk⟩ := andThen_eq_next h
    rw [core_run_of_step hv, ih hk]

/-- Steps of a running core walk the µops that its schedule holds from `UPC` on. -/
theorem core_run_of_runUops {cmd : Cmd} {sched us : List Byte} {upc : Nat} {s t : State}
    (hseq : s.seq = some { cmd := cmd, sched := sched, upc := upc }) (hus : us <+: sched.drop upc)
    (hrun : runUops us s = .next t) :
    Host.Core.run Sys2Proof.core us.length s = .next t ∧
      t.seq = some { cmd := cmd, sched := sched, upc := upc + us.length } := by
  induction us generalizing upc s with
  | nil =>
    cases hrun
    exact ⟨rfl, hseq⟩
  | cons u us ih =>
    obtain ⟨v, hv, hrun⟩ := andThen_eq_next hrun
    obtain ⟨vs, hvs⟩ := hus
    have hstep : step s = .next v := by
      have hu : sched[upc]? = some u := by
        rw [← List.head?_drop, ← hvs]
        rfl
      rw [step_of_running hseq, sequencerStep, hu]
      exact hv
    have hvseq : v.seq = some { cmd := cmd, sched := sched, upc := upc + 1 } := by
      obtain ⟨hseq', -⟩ := runUop_frame hv
      rw [hseq', hseq]
      rfl
    have hus : us <+: sched.drop (upc + 1) := by
      rw [← List.tail_drop, ← hvs]
      exact ⟨vs, rfl⟩
    obtain ⟨hcore, htseq⟩ := ih hvseq hus hrun
    rw [List.length_cons, core_run_of_step hstep, ← Nat.add_assoc, Nat.add_right_comm]
    exact ⟨hcore, htseq⟩

/-- Steps from a command's begin walk its schedule. -/
theorem core_run_beginCommand {cmd : Cmd} {bytes : Block} {us : List Byte} {s t : State}
    (hus : us <+: schedule cmd) (hrun : runUops us (beginCommand cmd (schedule cmd) bytes s) = .next t) :
    Host.Core.run Sys2Proof.core us.length (beginCommand cmd (schedule cmd) bytes s) = .next t ∧
      t.seq = some { cmd := cmd, sched := schedule cmd, upc := us.length } := by
  rw [← Nat.zero_add us.length]
  simpa only [Nat.zero_add] using
    core_run_of_runUops (sched := schedule cmd) (upc := 0) (beginCommand_seq ..) hus hrun

/-- If a list of µops runs, so does its beginning. -/
theorem runUops_take {us : List Byte} {s t : State} (h : runUops us s = .next t) (k : Nat) :
    ∃ u, runUops (us.take k) s = .next u := by
  rw [← List.take_append_drop k us, runUops_append] at h
  obtain ⟨u, hu, -⟩ := andThen_eq_next h
  exact ⟨u, hu⟩

/-- The instruction of a command and its operand words. -/
def commandInstr (cmd : Cmd) (es : List StreamWord) : Instr :=
  match cmd with
  | .loadkey => .loadkey es
  | .encrypt => .encrypt es
  | .decrypt => .decrypt es

theorem exec_commandInstr_of_legal {cmd : Cmd} {es : List StreamWord} {s : State}
    (hes : LegalOperands es) (hkey : cmd = .loadkey ∨ s.keyValid = true) :
    exec (commandInstr cmd es) s = runCommand cmd (operandBytes es) s := by
  have hok {op : BitVec 2} (hop : op ≠ 3) (hkey : op = 0 ∨ s.keyValid = true) :
      check op 0 es s.keyValid = .ok := (check_eq_ok_iff _ _ _ _).2 ⟨⟨hop, rfl⟩, hes, hkey⟩
  cases cmd with
  | loadkey => exact checkedCommand_of_ok (hok (by decide) (.inl rfl))
  | encrypt => exact checkedCommand_of_ok (hok (by decide) (.inr (by simpa using hkey)))
  | decrypt => exact checkedCommand_of_ok (hok (by decide) (.inr (by simpa using hkey)))

/-- Settles O32: the command's run is its µops, which are steps, and its end, which is one more. -/
theorem atomicCommandIsItsUopRun : Obligations.AtomicCommandIsItsUopRun := by
  intro cmd es s hes hkey
  obtain ⟨t, hrun, -⟩ := runCommand_answers hkey (operandBytes es)
  obtain ⟨u, hu, rfl⟩ := runCommand_eq_next hrun
  refine ⟨fun k hk => ?_, ?_⟩
  · obtain ⟨v, hv⟩ := runUops_take hu k
    have hwalk := core_run_beginCommand (List.take_prefix k _) hv
    rw [List.length_take_of_le hk] at hwalk
    exact ⟨v, hwalk⟩
  · obtain ⟨hcore, hseq⟩ := core_run_beginCommand (List.prefix_refl _) hu
    obtain ⟨-, hend⟩ := runningStepRunsTheDecodedUop u _ hseq
    rw [core_run_succ_of_run hcore, hend (Nat.le_refl _)]
    exact ((exec_commandInstr_of_legal hes hkey).trans hrun).symm

/-! Three commands on one stream (R42, R97). -/

theorem operandBytes_dataWords (b : Block) : operandBytes (dataWords b) = b := by
  refine Vector.ext fun i hi => BitVec.eq_of_toNat_eq ?_
  rw [operandBytes_getElem hi (dataWords_getElem? b hi), elementByte_toNat_of_le, dataWord_toNat]
  exact toNat_le_of_mem_dataWords (List.mem_of_getElem? (dataWords_getElem? b hi))

/-- A command of 16 operand words at the front of the stream is taken whole. -/
theorem step_of_block {s : State} (hs : Idle s) {cmd : StreamWord} (hcmd : (cmdLen cmd).toNat = 16)
    {b : Block} {rest : List StreamWord} (hstream : s.cmdStream = (cmd :: dataWords b) ++ rest) :
    step s = exec (commandOf cmd (dataWords b)) { s with cmdStream := rest } := by
  have hlen : (cmdLen cmd).toNat = (dataWords b).length := by rw [hcmd, dataWords_length]
  refine step_of_decodeCommand hs ?_
  rw [hstream, List.cons_append, decodeCommand_cons_of_le _ _ (by simp [hlen]), hlen, List.take_left,
    List.drop_left]

theorem step_loadkey {s : State} (hs : Idle s) {key : Block} {rest : List StreamWord}
    (hstream : s.cmdStream = (0x1000 :: dataWords key) ++ rest) :
    ∃ t, step s = .next t ∧ Idle t ∧ t.keyValid = true ∧ t.rk = expandKey key ∧ t.cmdStream = rest ∧
      t.rspStream = s.rspStream ++ [0x0100] := by
  have hexec := exec_loadkey_of_legal (legalOperands_dataWords key) { s with cmdStream := rest }
  rw [operandBytes_dataWords] at hexec
  exact ⟨_, (step_of_block hs rfl hstream).trans hexec, rfl, rfl, rfl, rfl, rfl⟩

theorem step_encrypt {s : State} (hs : Idle s) (hkey : s.keyValid = true) {b : Block}
    {rest : List StreamWord} (hstream : s.cmdStream = (0x1001 :: dataWords b) ++ rest) :
    ∃ t, step s = .next t ∧ Idle t ∧ t.keyValid = true ∧ t.rk = s.rk ∧ t.cmdStream = rest ∧
      t.rspStream = s.rspStream ++ 0x0100 :: dataWords (encryptBlock s.rk b) := by
  have hexec := exec_encrypt_of_legal (s := { s with cmdStream := rest }) (legalOperands_dataWords b) hkey
  rw [operandBytes_dataWords] at hexec
  exact ⟨_, (step_of_block hs rfl hstream).trans hexec, rfl, hkey, rfl, rfl, rfl⟩

theorem step_decrypt {s : State} (hs : Idle s) (hkey : s.keyValid = true) {b : Block}
    {rest : List StreamWord} (hstream : s.cmdStream = (0x1002 :: dataWords b) ++ rest) :
    ∃ t, step s = .next t ∧ Idle t ∧ t.keyValid = true ∧ t.rk = s.rk ∧ t.cmdStream = rest ∧
      t.rspStream = s.rspStream ++ 0x0100 :: dataWords (decryptBlock s.rk b) := by
  have hexec := exec_decrypt_of_legal (s := { s with cmdStream := rest }) (legalOperands_dataWords b) hkey
  rw [operandBytes_dataWords] at hexec
  exact ⟨_, (step_of_block hs rfl hstream).trans hexec, rfl, hkey, rfl, rfl, rfl⟩

/-- Settles O35: three steps, the last of which undoes the second under the same round keys (R97). -/
theorem machineRoundTrip : Obligations.MachineRoundTrip := by
  intro key block s hs
  obtain ⟨t1, hstep1, hidle1, hkey1, hrk1, hcmd1, hrsp1⟩ :=
    step_loadkey (s := { s with cmdStream := (0x1000 :: dataWords key) ++ (0x1001 :: dataWords block) ++
      (0x1002 :: dataWords (encryptBlock (expandKey key) block)) }) hs (List.append_assoc ..)
  obtain ⟨t2, hstep2, hidle2, hkey2, hrk2, hcmd2, hrsp2⟩ := step_encrypt hidle1 hkey1 hcmd1
  obtain ⟨t3, hstep3, hidle3, hkey3, hrk3, hcmd3, hrsp3⟩ :=
    step_decrypt hidle2 hkey2 (hcmd2.trans (List.append_nil _).symm)
  refine ⟨t3, ?_, ?_, ?_, hkey3, hcmd3, hidle3⟩
  · rw [core_run_of_step hstep1, core_run_of_step hstep2, core_run_of_step hstep3]
    rfl
  · rw [hrsp3, hrsp2, hrsp1, hrk2, hrk1, decryptBlock_encryptBlock]
  · rw [hrk3, hrk2, hrk1]

end Sys2Proof.Machine

namespace Sys2Proof.Machine

/-! The texts of operands (R13, R59). -/

/-- A word's four hex digits are below 16 and make the word. -/
theorem hexNibbles (w : StreamWord) :
    w.toNat / 4096 < 16 ∧ w.toNat / 256 % 16 < 16 ∧ w.toNat / 16 % 16 < 16 ∧ w.toNat % 16 < 16 ∧
      16 * (16 * (16 * (w.toNat / 4096) + w.toNat / 256 % 16) + w.toNat / 16 % 16) + w.toNat % 16 =
        w.toNat := by
  have := w.isLt
  omega

/-- What holds of `0`, of `x` and of the 16 hex digits holds of every character of a word's text. -/
theorem forall_mem_hexNumber {P : Char → Prop} (h0 : P '0') (hx : P 'x') (h : ∀ n < 16, P (hexChar n))
    (w : StreamWord) : ∀ c ∈ hexNumber w, P c := by
  obtain ⟨h3, h2, h1, hlast, -⟩ := hexNibbles w
  simp only [hexNumber, List.forall_mem_cons]
  exact ⟨h0, hx, h _ h3, h _ h2, h _ h1, h _ hlast, nofun⟩

theorem hexNumber_unbroken (w : StreamWord) : Unbroken (hexNumber w) :=
  forall_mem_hexNumber (by decide) (by decide) hexChar_unbroken w

theorem number_hexNumber (w : StreamWord) : number (hexNumber w) = some w.toNat := by
  obtain ⟨h3, h2, h1, hlast, hsum⟩ := hexNibbles w
  simp [number, hexNumber, digits, digitsFrom, hexDigit_hexChar _ h3, hexDigit_hexChar _ h2,
    hexDigit_hexChar _ h1, hexDigit_hexChar _ hlast, hsum]

theorem moreOperands_cons (e : StreamWord) (es : List StreamWord) :
    moreOperands (e :: es) = ',' :: ((' ' :: hexNumber e) ++ moreOperands es) := rfl

/-- What holds of every character of an operand's text, and of a comma and a space, holds of every
character of an operand list. -/
theorem forall_mem_firstOperands {P : Char → Prop} (hcomma : P ',') (hspace : P ' ')
    (h : ∀ w, ∀ c ∈ hexNumber w, P c) (es : List StreamWord) : ∀ c ∈ firstOperands es, P c := by
  have hmore (es : List StreamWord) : ∀ c ∈ moreOperands es, P c := by
    induction es with
    | nil => exact nofun
    | cons e es ih =>
      rw [moreOperands_cons]
      simp only [List.forall_mem_cons, List.forall_mem_append]
      exact ⟨hcomma, ⟨hspace, h e⟩, ih⟩
  cases es with
  | nil => exact nofun
  | cons e es => exact List.forall_mem_append.2 ⟨h e, hmore es⟩

theorem map_lowerChar_firstOperands (es : List StreamWord) :
    (firstOperands es).map lowerChar = firstOperands es := by
  have hfixed := forall_mem_firstOperands (P := fun c => lowerChar c = c) (by decide) (by decide)
    (forall_mem_hexNumber (by decide) (by decide) lowerChar_hexChar) es
  exact (List.map_congr_left hfixed).trans (List.map_id _)

theorem firstOperands_ne_semicolon (es : List StreamWord) : ∀ c ∈ firstOperands es, c ≠ ';' :=
  forall_mem_firstOperands (by decide) (by decide) (fun w c hc => (hexNumber_unbroken w c hc).1) es

/-- Operands after a text end in no blank if the text ends in none. -/
theorem getLast?_append_moreOperands {xs : List Char} (hlast : ∀ c ∈ xs.getLast?, isBlank c = false)
    (es : List StreamWord) : ∀ c ∈ (xs ++ moreOperands es).getLast?, isBlank c = false := by
  induction es generalizing xs with
  | nil => simpa [moreOperands] using hlast
  | cons e es ih =>
    have hassoc : xs ++ moreOperands (e :: es) = (xs ++ [',', ' ']) ++ hexNumber e ++ moreOperands es := by
      simp [moreOperands_cons]
    rw [hassoc]
    refine ih fun c hc => ?_
    rw [List.getLast?_append_of_ne_nil _ (by simp [hexNumber])] at hc
    exact (hexNumber_unbroken e c (List.mem_of_getLast? hc)).2

theorem firstOperands_getLast? (es : List StreamWord) :
    ∀ c ∈ (firstOperands es).getLast?, isBlank c = false := by
  cases es with
  | nil => exact nofun
  | cons e es =>
    exact getLast?_append_moreOperands
      (fun c hc => (hexNumber_unbroken e c (List.mem_of_getLast? hc)).2) es

/-! An operand list read back (R59). -/

theorem pieces_append_cons {p : Char → Bool} {cs : List Char} {c : Char} (h : ∀ x ∈ cs, p x = false)
    (hc : p c = true) (rest : List Char) : pieces p (cs ++ c :: rest) = cs :: pieces p rest := by
  induction cs with
  | nil => simp [pieces, hc]
  | cons x cs ih =>
    rw [List.forall_mem_cons] at h
    simp [pieces, h.1, ih h.2]

theorem pieces_of_forall_not {p : Char → Bool} {cs : List Char} (h : ∀ c ∈ cs, p c = false) :
    pieces p cs = [cs] := by
  induction cs with
  | nil => rfl
  | cons c cs ih =>
    rw [List.forall_mem_cons] at h
    simp [pieces, h.1, ih h.2]

theorem hexNumber_no_comma (w : StreamWord) : ∀ c ∈ hexNumber w, (c == ',') = false :=
  forall_mem_hexNumber (by decide) (by decide) (by decide) w

/-- The pieces between the commas of an operand list. -/
theorem pieces_append_moreOperands {xs : List Char} (h : ∀ c ∈ xs, (c == ',') = false)
    (es : List StreamWord) :
    pieces (· == ',') (xs ++ moreOperands es) = xs :: es.map fun e => ' ' :: hexNumber e := by
  induction es generalizing xs with
  | nil => simpa [moreOperands] using pieces_of_forall_not h
  | cons e es ih =>
    have hnext : ∀ c ∈ ' ' :: hexNumber e, (c == ',') = false :=
      List.forall_mem_cons.2 ⟨by decide, hexNumber_no_comma e⟩
    rw [moreOperands_cons, pieces_append_cons h (by decide), ih hnext, List.map_cons]

theorem number_trim_hexNumber (w : StreamWord) : number (trim (hexNumber w)) = some w.toNat := by
  rw [(hexNumber_unbroken w).trim, number_hexNumber]

theorem trim_space_cons (cs : List Char) : trim (' ' :: cs) = trim cs := rfl

theorem allSome_map_some {α β : Type} (f : α → β) (l : List α) :
    allSome (l.map fun a => some (f a)) = some (l.map f) := by
  induction l with
  | nil => rfl
  | cons a l ih => simp [allSome, ih]

/-- The operand list that the writer makes reads back as its words. -/
theorem operandList_firstOperands (es : List StreamWord) :
    operandList (firstOperands es) = some (es.map BitVec.toNat) := by
  cases es with
  | nil => rfl
  | cons e es =>
    have htrim : trim (firstOperands (e :: es)) = firstOperands (e :: es) :=
      trim_eq_self (by simp [firstOperands, hexNumber, isBlank]) (firstOperands_getLast? _)
    unfold operandList
    rw [htrim]
    split
    · next hnil => simp [firstOperands, hexNumber] at hnil
    · rw [firstOperands, pieces_append_moreOperands (hexNumber_no_comma e), List.map_cons, List.map_map]
      simp only [Function.comp_def, trim_space_cons, number_trim_hexNumber]
      exact allSome_map_some BitVec.toNat (e :: es)

/-! The lines of commands (R59). -/

/-- The words of a command whose fields and operand words fit. -/
theorem asmCommand_eq (rsv : BitVec 6) (op : BitVec 2) {es : List StreamWord} (hes : lenFits es = true) :
    asmCommand rsv.toNat op.toNat (es.map BitVec.toNat) = some (commandWords rsv op es) := by
  have hlen : es.length < 256 := Nat.lt_succ_of_le ((lenFits_eq_true_iff es).1 hes)
  have hword (e : StreamWord) : e.toNat < 65536 := e.isLt
  simp [asmCommand, inRange, hlen, hword, rsv.isLt, op.isLt, Function.comp_def]

theorem asmLine_firstOperands {mnemonic : List Char} (hne : mnemonic ≠ []) (hm : Unbroken mnemonic)
    {es : List StreamWord} (hes : es ≠ []) :
    asmLine (mnemonic ++ ' ' :: firstOperands es) =
      asmMnemonic (mnemonic.map lowerChar) (firstOperands es) := by
  have hrest : firstOperands es ≠ [] := by
    cases es with
    | nil => exact absurd rfl hes
    | cons e es => simp [firstOperands, hexNumber]
  rw [asmLine_append_space hne hm hrest (firstOperands_ne_semicolon es) (firstOperands_getLast? es),
    map_lowerChar_firstOperands]

/-- A line of a mnemonic that takes an operand list; with no operand the line ends in the blank. -/
theorem asmLine_listed {mnemonic : List Char} (op : BitVec 2) (hne : mnemonic ≠ [])
    (hm : Unbroken mnemonic) {es : List StreamWord} (hes : lenFits es = true)
    (hnil : asmLine (mnemonic ++ [' ']) = some (commandWords 0 op []))
    (hasm : ∀ rest, asmMnemonic (mnemonic.map lowerChar) rest = asmListed op.toNat rest) :
    asmLine (mnemonic ++ ' ' :: firstOperands es) = some (commandWords 0 op es) := by
  by_cases hempty : es = []
  · rw [hempty]
    exact hnil
  · rw [asmLine_firstOperands hne hm hempty, hasm, asmListed, operandList_firstOperands]
    exact asmCommand_eq 0 op hes

/-- A line of a raw command: OP and RSV are its first two operands. -/
theorem asmLine_raw (rsv : BitVec 6) (op : BitVec 2) {es : List StreamWord} (hes : lenFits es = true) :
    asmLine (['C', 'M', 'D', ' '] ++ firstOperands (op.zeroExtend 16 :: rsv.zeroExtend 16 :: es)) =
      some (commandWords rsv op es) := by
  have hop : (op.zeroExtend 16).toNat = op.toNat := BitVec.toNat_setWidth_of_le (by decide)
  have hrsv : (rsv.zeroExtend 16).toNat = rsv.toNat := BitVec.toNat_setWidth_of_le (by decide)
  have hasm (rest : List Char) : asmMnemonic (['C', 'M', 'D'].map lowerChar) rest =
      (operandList rest).bind asmRaw := by
    change (match operandList rest with | some ns => asmRaw ns | none => none) = _
    cases operandList rest <;> rfl
  refine (asmLine_firstOperands (mnemonic := ['C', 'M', 'D']) (by decide) (by simp [Unbroken, isBlank])
    (List.cons_ne_nil _ _)).trans ?_
  rw [hasm, operandList_firstOperands, List.map_cons, List.map_cons, hop, hrsv]
  exact asmCommand_eq rsv op hes

/-- Settles O52: each command's line reads back as its operand words, and a raw command's as its fields
too. -/
theorem commandLinesAssembleToTheirWords : Obligations.CommandLinesAssembleToTheirWords := by
  intro i line hwf hline
  cases i with
  | loadkey es =>
    cases hline
    exact ⟨_, rfl, asmLine_listed (mnemonic := ['L', 'O', 'A', 'D', 'K', 'E', 'Y']) 0 (by decide)
      (by simp [Unbroken, isBlank]) hwf (by decide) fun _ => rfl⟩
  | encrypt es =>
    cases hline
    exact ⟨_, rfl, asmLine_listed (mnemonic := ['E', 'N', 'C', 'R', 'Y', 'P', 'T']) 1 (by decide)
      (by simp [Unbroken, isBlank]) hwf (by decide) fun _ => rfl⟩
  | decrypt es =>
    cases hline
    exact ⟨_, rfl, asmLine_listed (mnemonic := ['D', 'E', 'C', 'R', 'Y', 'P', 'T']) 2 (by decide)
      (by simp [Unbroken, isBlank]) hwf (by decide) fun _ => rfl⟩
  | illegalOp3 rsv es =>
    cases hline
    exact ⟨_, rfl, asmLine_raw rsv 3 hwf⟩
  | illegalRsv rsv op es =>
    cases hline
    obtain ⟨-, hfits⟩ : (rsv ≠ 0 ∧ op ≠ 3) ∧ lenFits es = true := by simpa [Instr.wf] using hwf
    exact ⟨_, rfl, asmLine_raw rsv op hfits⟩
  | uopArk r => cases hline
  | uopSub => cases hline
  | uopIsub => cases hline
  | uopSr => cases hline
  | uopIsr => cases hline
  | uopMc => cases hline
  | uopImc => cases hline
  | uopKexp r => cases hline
  | uopLdst => cases hline
  | uopOutst => cases hline
  | uopLdkey => cases hline
  | uopReserved r kind => cases hline

end Sys2Proof.Machine
